-- ==== Sys2Proof/Word.lean ====
section
/-! DEFINITION. The word type of the hart and the two widths XLEN can have. -/

namespace Sys2Proof

/-- A word of the hart. An XLEN-bit value is held in 64 bits; when XLEN is 32 its upper 32 bits are
zero (log 1, DESIGN CHOICE). -/
abbrev Word := BitVec 64

/-- The widths of 00_scope.md R3: SXLEN is 32 or 64, and XLEN = SXLEN (R4). -/
inductive Xlen where
  | x32
  | x64
  deriving DecidableEq, Repr

/-- The width in bits. -/
def Xlen.bits : Xlen → Nat
  | .x32 => 32
  | .x64 => 64

end Sys2Proof
end

