-- ==== Sys2Proof/Syntax.lean ====
section
/-! DEFINITION. The seven instructions (30_encoding.md R83), the CSRs they can name (R84). -/

namespace Sys2Proof

/-- The admitted instructions (00_scope.md R16), one constructor per row of the opcode table. A `csr`
operand is the 12-bit CSR number as it stands in the word (30_encoding.md R82). -/
inductive Instr where
  /-- 40_csr_access.md R103. -/
  | csrrw (rd : BitVec 5) (csr : BitVec 12) (rs1 : BitVec 5)
  /-- 40_csr_access.md R104. -/
  | csrrs (rd : BitVec 5) (csr : BitVec 12) (rs1 : BitVec 5)
  /-- 40_csr_access.md R105. -/
  | csrrc (rd : BitVec 5) (csr : BitVec 12) (rs1 : BitVec 5)
  /-- 40_csr_access.md R106. -/
  | csrrwi (rd : BitVec 5) (csr : BitVec 12) (uimm : BitVec 5)
  /-- 40_csr_access.md R107. -/
  | csrrsi (rd : BitVec 5) (csr : BitVec 12) (uimm : BitVec 5)
  /-- 40_csr_access.md R108. -/
  | csrrci (rd : BitVec 5) (csr : BitVec 12) (uimm : BitVec 5)
  /-- 41_sret.md R131. -/
  | sret
  deriving DecidableEq, Repr

/-- The CSRs of 30_encoding.md R84, by name. `counter n` is `cycle`, `time`, `instret` for n = 0, 1, 2 and
`hpmcounter`n for n from 3 to 31; `counterHigh n` is its upper half, which exists when XLEN is 32. -/
inductive Csr where
  | scounteren
  | sscratch
  | sepc
  | counter (n : BitVec 5)
  | counterHigh (n : BitVec 5)
  deriving DecidableEq, Repr

/-- The CSR number an instruction names; SRET names none. -/
def Instr.csrField : Instr → Option (BitVec 12)
  | .csrrw _ c _ => some c
  | .csrrs _ c _ => some c
  | .csrrc _ c _ => some c
  | .csrrwi _ c _ => some c
  | .csrrsi _ c _ => some c
  | .csrrci _ c _ => some c
  | .sret => none

/-- The destination register field; SRET has none. -/
def Instr.rdField : Instr → Option (BitVec 5)
  | .csrrw rd _ _ => some rd
  | .csrrs rd _ _ => some rd
  | .csrrc rd _ _ => some rd
  | .csrrwi rd _ _ => some rd
  | .csrrsi rd _ _ => some rd
  | .csrrci rd _ _ => some rd
  | .sret => none

/-- Does the instruction write the CSR it names? CSRRW and CSRRWI always, the set and clear forms when
the field `rs1` or `uimm` is not 0, whatever the register holds (40_csr_access.md R103 to R108). -/
def Instr.writesCsr : Instr → Bool
  | .csrrw _ _ _ => true
  | .csrrs _ _ rs1 => rs1 != 0
  | .csrrc _ _ rs1 => rs1 != 0
  | .csrrwi _ _ _ => true
  | .csrrsi _ _ uimm => uimm != 0
  | .csrrci _ _ uimm => uimm != 0
  | .sret => false

end Sys2Proof
end

