-- ==== Sys2Proof/Decode.lean ====
section
/-! DEFINITION. Decoding (30_encoding.md R80 to R90), total on every 32-bit word, the encoder, and the
spellings of R89. Every encoding is general knowledge by the spec's own mark (GK4 to GK8, log 14). -/

namespace Sys2Proof

/-- Why a word is refused (30_encoding.md R87). -/
inductive DecodeReject where
  /-- (a): the word matches no row of R83. -/
  | opcode
  /-- (b): the `csr` field is not in R84 for the current XLEN. -/
  | csr
  /-- (c): the two low bits are not 11 (R88). -/
  | length
  deriving DecidableEq, Repr

/-! ### CSR numbers -/

/-- The CSR a number names, for a given XLEN (30_encoding.md R84): the three supervisor registers, the
counters at 0xC00 to 0xC1F, and, when XLEN is 32 only, their upper halves at 0xC80 to 0xC9F. -/
def csrOfNumber (x : Xlen) (c : BitVec 12) : Option Csr :=
  if c = 0x106#12 then some .scounteren
  else if c = 0x140#12 then some .sscratch
  else if c = 0x141#12 then some .sepc
  else if c.extractLsb' 5 7 = 0b1100000#7 then some (.counter (c.extractLsb' 0 5))
  else if c.extractLsb' 5 7 = 0b1100100#7 ∧ x = .x32 then some (.counterHigh (c.extractLsb' 0 5))
  else none

/-- The number of a CSR (30_encoding.md R84). -/
def csrNumber : Csr → BitVec 12
  | .scounteren => 0x106#12
  | .sscratch => 0x140#12
  | .sepc => 0x141#12
  | .counter n => 0b1100000#7 ++ n
  | .counterHigh n => 0b1100100#7 ++ n

/-- The number carries its own rights: read-only exactly when bits 11:10 are 11 (30_encoding.md R85). -/
def csrReadOnly (c : BitVec 12) : Bool :=
  c.extractLsb' 10 2 == 0b11#2

/-- The lowest mode that may access the number, as the rank U = 0, S = 1, M = 3 (30_encoding.md R85). -/
def csrLowestRank (c : BitVec 12) : Nat :=
  (c.extractLsb' 8 2).toNat

/-! ### Words -/

/-- The instruction a word spells, by its opcode and funct3 alone (30_encoding.md R83). Neither `ialign`
nor `mode` nor SXLEN changes it (R88). -/
def decodeFields (w : BitVec 32) : Except DecodeReject Instr :=
  if w.extractLsb' 0 2 ≠ 0b11#2 then .error .length
  else if w = 0x10200073#32 then .ok .sret
  else if w.extractLsb' 0 7 ≠ 0b1110011#7 then .error .opcode
  else
    let c := w.extractLsb' 20 12
    let a := w.extractLsb' 15 5
    let d := w.extractLsb' 7 5
    let f := w.extractLsb' 12 3
    if f = 0b001#3 then .ok (.csrrw d c a)
    else if f = 0b010#3 then .ok (.csrrs d c a)
    else if f = 0b011#3 then .ok (.csrrc d c a)
    else if f = 0b101#3 then .ok (.csrrwi d c a)
    else if f = 0b110#3 then .ok (.csrrsi d c a)
    else if f = 0b111#3 then .ok (.csrrci d c a)
    else .error .opcode

/-- Is the CSR number the instruction names one of 30_encoding.md R84 for this XLEN? -/
def csrListed (x : Xlen) (i : Instr) : Bool :=
  match i.csrField with
  | some c => (csrOfNumber x c).isSome
  | none => true

/-- `decode(w)` of 30_encoding.md R90: the word's fields, then the refusal of a CSR number that R84 does
not list for the current XLEN. -/
def decode (x : Xlen) (w : BitVec 32) : Except DecodeReject Instr :=
  match decodeFields w with
  | .error r => .error r
  | .ok i => if csrListed x i then .ok i else .error .csr

/-- The instruction of a row of the opcode table, from the row's bits. All seven instructions are one
32-bit word (R80); the bits above `nbits` are 0. The CSR number is not checked here: a row leaves it free,
and R84 needs the XLEN of the machine (log 26). -/
def decodeTableWord (nbits w : Nat) : Option Instr :=
  match decodeFields (BitVec.ofNat 32 (w % 2 ^ nbits)) with
  | .ok i => some i
  | .error _ => none

/-! ### The encoder -/

/-- The I-type layout with major opcode SYSTEM (30_encoding.md R81). -/
def encodeSystem (c : BitVec 12) (a : BitVec 5) (f : BitVec 3) (d : BitVec 5) : BitVec 32 :=
  c ++ a ++ f ++ d ++ 0b1110011#7

/-- The word of an instruction (30_encoding.md R83, R86). -/
def encode : Instr → BitVec 32
  | .csrrw d c a => encodeSystem c a 0b001#3 d
  | .csrrs d c a => encodeSystem c a 0b010#3 d
  | .csrrc d c a => encodeSystem c a 0b011#3 d
  | .csrrwi d c a => encodeSystem c a 0b101#3 d
  | .csrrsi d c a => encodeSystem c a 0b110#3 d
  | .csrrci d c a => encodeSystem c a 0b111#3 d
  | .sret => 0x10200073#32

/-! ### The spellings of 30_encoding.md R89 -/

/-- `csrr rd, csr`: read a CSR, no write. -/
def asmCsrr (rd : BitVec 5) (c : BitVec 12) : Instr := .csrrs rd c 0

/-- `csrw csr, rs1`: write a CSR, no read. -/
def asmCsrw (c : BitVec 12) (rs1 : BitVec 5) : Instr := .csrrw 0 c rs1

/-- `csrs csr, rs1`: set bits. -/
def asmCsrs (c : BitVec 12) (rs1 : BitVec 5) : Instr := .csrrs 0 c rs1

/-- `csrc csr, rs1`: clear bits. -/
def asmCsrc (c : BitVec 12) (rs1 : BitVec 5) : Instr := .csrrc 0 c rs1

/-- `csrwi csr, uimm`: write a 5-bit immediate. -/
def asmCsrwi (c : BitVec 12) (uimm : BitVec 5) : Instr := .csrrwi 0 c uimm

/-- `csrsi csr, uimm`: set bits from an immediate. -/
def asmCsrsi (c : BitVec 12) (uimm : BitVec 5) : Instr := .csrrsi 0 c uimm

/-- `csrci csr, uimm`: clear bits from an immediate. -/
def asmCsrci (c : BitVec 12) (uimm : BitVec 5) : Instr := .csrrci 0 c uimm

/-- `rdcycle rd`. -/
def asmRdcycle (rd : BitVec 5) : Instr := asmCsrr rd (csrNumber (.counter 0))

/-- `rdtime rd`. -/
def asmRdtime (rd : BitVec 5) : Instr := asmCsrr rd (csrNumber (.counter 1))

/-- `rdinstret rd`. -/
def asmRdinstret (rd : BitVec 5) : Instr := asmCsrr rd (csrNumber (.counter 2))

/-- `rdcycleh rd`, XLEN = 32 only. -/
def asmRdcycleh (rd : BitVec 5) : Instr := asmCsrr rd (csrNumber (.counterHigh 0))

/-- `rdtimeh rd`, XLEN = 32 only. -/
def asmRdtimeh (rd : BitVec 5) : Instr := asmCsrr rd (csrNumber (.counterHigh 1))

/-- `rdinstreth rd`, XLEN = 32 only. -/
def asmRdinstreth (rd : BitVec 5) : Instr := asmCsrr rd (csrNumber (.counterHigh 2))

end Sys2Proof
end

