-- ==== Sys2Proof/Config.lean ====
section
/-! DEFINITION. What an implementation fixes (00_scope.md section 3) and the free values.

The parameters are plain data, carried by the state of a run and changed by no step (log 2), so that a
statement over every state is a statement over every implementation. The opaque constants have no body:
nothing can be proved of their values. -/

namespace Sys2Proof

/-- IALIGN_SUPPORT, which values of IALIGN the implementation can take (00_scope.md R5). -/
inductive IAlignSupport where
  | only32
  | only16
  | both
  deriving DecidableEq, Repr

/-- BYTE_ORDER (20_memory.md R61): an open parameter that no rule reads. -/
inductive ByteOrder where
  | little
  | big
  deriving DecidableEq, Repr

/-- Which function `sepc_legalize` is (00_scope.md R9, 92_eei_decisions.md D4): the default, the identity,
or the choice numbered `k` of an implementation, about which nothing is known but that it keeps bits 1:0. -/
inductive SepcLegalize where
  | identity
  | implementation (k : Nat)
  deriving DecidableEq, Repr

/-- The two operations of 40_csr_access.md R113 whose effect on the hidden bit is open. -/
inductive MaskOp where
  | set
  | clear
  deriving DecidableEq, Repr

/-- The parameters of 00_scope.md section 3. -/
structure Config where
  /-- SXLEN, and XLEN with it in every mode (R3, R4). -/
  sxlen : Xlen
  /-- IALIGN_SUPPORT (R5). -/
  ialignSupport : IAlignSupport
  /-- SCOUNTEREN_HZ (R7): bit n is 1 when bit n of `scounteren` is hardwired to zero. -/
  scounterenHz : BitVec 32
  /-- M_COUNTER_GATE (R8): bit n is 1 when machine level lets the modes below it read counter n. -/
  mCounterGate : BitVec 32
  /-- Which function `sepc_legalize` is (R9). -/
  sepcLegalize : SepcLegalize
  /-- M_TSR (41_sret.md R133). -/
  mTsr : Bool
  /-- BYTE_ORDER (20_memory.md R61), read by no rule. -/
  byteOrder : ByteOrder
  deriving DecidableEq, Repr

/-- FREE VALUE, `draw_XLEN()` of 40_csr_access.md R110: what the read of counter number `c` returns when
it is free value number `k` of the run (log 7). -/
opaque Config.counterDraw (c : BitVec 12) (k : Nat) : Word

/-- FREE VALUE, `draw_1()` of 40_csr_access.md R113: the new hidden bit of `sepc` after a set or clear
with mask `m`, when it is free value number `k` of the run (log 8). -/
opaque Config.hiddenBitDraw (op : MaskOp) (m : Word) (k : Nat) : Bool

/-- FREE VALUE: the function an implementation applies to a value on its way into `sepc`, before bits 1:0
are put back (00_scope.md R9, log 9). -/
opaque Config.sepcChoice (k : Nat) (v : Word) : Word

end Sys2Proof
end

