-- ==== Sys2Proof/Machine/State.lean ====
section
/-! DEFINITION. The state of the hart (10_state.md R20) with the launch parameters of its run, the ways a
step can stop, and the state after reset. -/

namespace Sys2Proof.Machine

/-- The privilege modes (10_state.md R49). -/
inductive Mode where
  | U
  | S
  | M
  deriving DecidableEq, Repr

/-- The modes `spp` can hold (10_state.md R50). -/
inductive Spp where
  | U
  | S
  deriving DecidableEq, Repr

/-- The values of IALIGN, in bits (00_scope.md R6). -/
inductive IAlign where
  | i16
  | i32
  deriving DecidableEq, Repr

/-- `ialign / 8`: the alignment of an instruction address in bytes (20_memory.md R62). -/
def IAlign.bytes : IAlign → Nat
  | .i16 => 2
  | .i32 => 4

/-- PROGRAM (20_memory.md R69): a finite map from addresses that are multiples of 4 to 32-bit instruction
words, listed with rising addresses. It is the only store of the machine: there is no data memory (R60). -/
abbrev Program := List (Nat × BitVec 32)

/-- The state of one hart (10_state.md R20), with the launch parameters (log 2) and the count of free
values taken so far. -/
structure State where
  /-- The parameters of 00_scope.md section 3, changed by no step. -/
  cfg : Config
  /-- PROGRAM (20_memory.md R69), changed by no step. -/
  program : Program
  /-- `scounteren` (10_state.md R21). -/
  scounteren : BitVec 32
  /-- `sscratch` (10_state.md R30). -/
  sscratch : Word
  /-- `sepc_s`, the stored form of `sepc` (10_state.md R44). -/
  sepc : Word
  /-- `ialign` (00_scope.md R6). -/
  ialign : IAlign
  /-- `mode` (10_state.md R49). -/
  mode : Mode
  /-- `spp` (10_state.md R50). -/
  spp : Spp
  /-- `pc` (10_state.md R52). -/
  pc : Word
  /-- `x[1]` to `x[31]`, entry n - 1 holding `x[n]` (10_state.md R51). -/
  x : Vector Word 31
  /-- The model's own: how many free values the run has taken (log 7). -/
  draws : Nat
  deriving DecidableEq, Repr

/-- The exceptions (60_exceptions.md R140: there is one). -/
inductive Cause where
  | illegalInstruction
  deriving DecidableEq, Repr

/-- What stops the machine. -/
inductive Fault where
  /-- `Trapped(cause, pc)` of 60_exceptions.md R144, raised by every meaning through `raiseIllegal`; `pc` is
  the address of the instruction that raised it. Safe: nothing is claimed of what the chip does in its
  handler. -/
  | trapped (cause : Cause) (pc : Word)
  deriving DecidableEq, Repr

/-- The words, CSR numbers and addresses to which the spec gives no meaning. None of these says that the
chip traps or stops (00_scope.md R19). -/
inductive Refusal where
  /-- `exec` on an instruction that has no meaning yet, by its mnemonic. Safe. -/
  | notModelled (mnemonic : String)
  /-- `Refused(length)` of 30_encoding.md R87 (c), from `fetchInstr`. Safe. -/
  | length (w : BitVec 32)
  /-- `Refused(opcode)` of 30_encoding.md R87 (a), from `fetchInstr`. Safe. -/
  | opcode (w : BitVec 32)
  /-- `Refused(csr)` of 30_encoding.md R87 (b), from `fetchInstr` and from the six CSR meanings. Safe. -/
  | csr (c : BitVec 12)
  /-- `Left(pc)` of 00_scope.md R19, from `fetchInstr`: PROGRAM has no word at `pc`. Safe; by 20_memory.md
  R69 a limit of the model, not a fault of the chip. -/
  | left (pc : Word)
  /-- The launch that 20_memory.md R62 refuses, from `fetchInstr`: `pc` is no multiple of `ialign / 8`.
  Safe; no step leads to such a state (log 18). -/
  | misalignedLaunch (pc : Word)
  deriving DecidableEq, Repr

/-- The parameters at `State.reset`: the spec's default where it gives one (R8, R9, R133), a value of log 3
where it leaves the parameter open. -/
def resetConfig : Config :=
  { sxlen := .x32
    ialignSupport := .both
    scounterenHz := 0#32
    mCounterGate := 0xFFFFFFFF#32
    sepcLegalize := .identity
    mTsr := false
    byteOrder := .little }

/-- The machine right after reset. The spec gives no reset value (10_state.md R58): `mode` is the family's
(log 4, PRESUMED), every other register the value of log 3 (DESIGN CHOICE). -/
def State.reset : State :=
  { cfg := resetConfig
    program := []
    scounteren := 0#32
    sscratch := 0#64
    sepc := 0#64
    ialign := .i32
    mode := .M
    spp := .U
    pc := 0#64
    x := Vector.replicate 31 0#64
    draws := 0 }

end Sys2Proof.Machine
end

