-- ==== Sys2Proof/Machine/Flags.lean ====
section
/-! DEFINITION. The machine has no flags and no condition codes (10_state.md R53). What stands here are the
one-bit fields of `scounteren` and the tests on modes that decide an access. -/

namespace Sys2Proof.Machine

/-- Bit n of `scounteren`, the gate of the counter numbered n (10_state.md R22, R23): CY is bit 0, TM bit 1,
IR bit 2, HPMn bit n. The bit tested is the bit as it reads (40_csr_access.md R109). -/
def counterEnable (s : State) (n : BitVec 5) : Bool := s.scounteren.getLsbD n.toNat

/-- Bit n of M_COUNTER_GATE (00_scope.md R8). -/
def machineGate (s : State) (n : BitVec 5) : Bool := s.cfg.mCounterGate.getLsbD n.toNat

/-- `rank` of 40_csr_access.md R100: U = 0, S = 1, M = 3. -/
def rank : Mode → Nat
  | .U => 0
  | .S => 1
  | .M => 3

/-- The mode that `spp` stands for (41_sret.md R132). -/
def sppMode : Spp → Mode
  | .U => .U
  | .S => .S

/-- `sepc[1]` is masked on reads: an implementation that allows IALIGN to be either 16 or 32, while it is 32
(10_state.md R38). -/
def sepcMasked (s : State) : Bool :=
  s.cfg.ialignSupport == .both && s.ialign == .i32

end Sys2Proof.Machine
end

