-- ==== Sys2Proof/Machine/Operands.lean ====
section
/-! DEFINITION. XLEN-bit values, the operand forms of 30_encoding.md R82 and the one home of every register:
each register is written by the update named after it, and by nothing else. -/

namespace Sys2Proof.Machine

/-- `trunc_XLEN` (00_scope.md R12): the low XLEN bits of a word, its other bits zero. -/
def fit (x : Xlen) (v : Word) : Word :=
  match x with
  | .x32 => (v.setWidth 32).setWidth 64
  | .x64 => v

/-- A word is an XLEN-bit value. -/
abbrev Fits (x : Xlen) (v : Word) : Prop := fit x v = v

/-- `zext_XLEN(uimm)`: the 5-bit immediate, never sign-extended, scaled or shifted (30_encoding.md R82). -/
def zextUimm (u : BitVec 5) : Word := u.setWidth 64

/-- `v[n] <- b` on a word (00_scope.md R11). -/
def setBit (v : Word) (n : Nat) (b : Bool) : Word :=
  if b then v ||| BitVec.twoPow 64 n else v &&& ~~~ BitVec.twoPow 64 n

/-- `x[n]`: `x[0]` reads as zero (10_state.md R51). -/
def readReg (s : State) (n : BitVec 5) : Word :=
  if h : n = 0#5 then 0#64
  else s.x[n.toNat - 1]'(by
    have h0 : n.toNat ≠ 0 := fun e => h (BitVec.eq_of_toNat_eq e)
    have := n.isLt
    omega)

/-- `x[n] <- v`: `x[0]` ignores writes, any other register holds XLEN bits (10_state.md R51). -/
def writeReg (s : State) (n : BitVec 5) (v : Word) : State :=
  if h : n = 0#5 then s
  else { s with x := s.x.set (n.toNat - 1) (fit s.cfg.sxlen v) (by
    have h0 : n.toNat ≠ 0 := fun e => h (BitVec.eq_of_toNat_eq e)
    have := n.isLt
    omega) }

/-- `pc <- v`, an XLEN-bit value (10_state.md R52). -/
def setPc (s : State) (v : Word) : State := { s with pc := fit s.cfg.sxlen v }

/-- `pc <- pc + 4` modulo 2^XLEN (10_state.md R52). -/
def advancePc (s : State) : State := setPc s (s.pc + 4#64)

/-- `scounteren <- v`: hardwired bits stay zero, the others hold the value written (10_state.md R25, R26,
R27). -/
def setScounteren (s : State) (v : BitVec 32) : State :=
  { s with scounteren := v &&& ~~~ s.cfg.scounterenHz }

/-- `sscratch <- v`: every bit holds the last value written (10_state.md R30). -/
def setSscratch (s : State) (v : Word) : State := { s with sscratch := fit s.cfg.sxlen v }

/-- `sepc_s <- v`, an XLEN-bit value (10_state.md R44). -/
def setSepc (s : State) (v : Word) : State := { s with sepc := fit s.cfg.sxlen v }

/-- A free value is taken: the next one will be new (40_csr_access.md R110). -/
def takeDraw (s : State) : State := { s with draws := s.draws + 1 }

/-- `mode <- m`, `spp <- p` (41_sret.md R132). -/
def setPrivilege (s : State) (m : Mode) (p : Spp) : State := { s with mode := m, spp := p }

end Sys2Proof.Machine
end

