-- ==== Sys2Proof/Machine/Ops.lean ====
section
/-! DEFINITION. The shared operations: PROGRAM, `sepc`, the CSR access check, CSR read, write, set and clear,
the exception and the return from one. -/

namespace Sys2Proof.Machine

/-! ### PROGRAM -/

/-- The entry of an address in a listing. -/
def programLookup : Program → Nat → Option (BitVec 32)
  | [], _ => none
  | (b, w) :: p, a => if a = b then some w else programLookup p a

/-- `PROGRAM[a]`: its domain holds multiples of 4 only (20_memory.md R69). -/
def programGet (p : Program) (a : Nat) : Option (BitVec 32) :=
  if a % 4 = 0 then programLookup p a else none

/-- The listing with the word at `a` replaced or entered in its place. -/
def programPut : Program → Nat → BitVec 32 → Program
  | [], a, w => [(a, w)]
  | (b, v) :: p, a, w =>
    if a < b then (a, w) :: (b, v) :: p
    else if a = b then (a, w) :: p
    else (b, v) :: programPut p a w

/-- Every address is at least `lo`, the addresses rise strictly, and each is a multiple of 4 below `top`. -/
def programWfFrom (top : Nat) : Nat → Program → Bool
  | _, [] => true
  | lo, (b, _) :: p => decide (lo ≤ b) && decide (b % 4 = 0) && decide (b < top) && programWfFrom top (b + 1) p

/-- The canonical form of PROGRAM (20_memory.md R69): rising addresses, multiples of 4, XLEN bits wide. -/
def programWf (x : Xlen) (p : Program) : Bool := programWfFrom (2 ^ x.bits) 0 p

/-! ### `sepc` -/

/-- `read_sepc()` of 10_state.md R41, the value of every explicit and implicit read. -/
def readSepc (s : State) : Word :=
  if sepcMasked s then setBit s.sepc 1 false else s.sepc

/-- `sepc_legalize` (00_scope.md R9): the identity, or an implementation's function, of which it is known
that it leaves bits 1:0 as they are. -/
def sepcLegalize (c : Config) (v : Word) : Word :=
  match c.sepcLegalize with
  | .identity => v
  | .implementation k => (Config.sepcChoice k v &&& ~~~ 3#64) ||| (v &&& 3#64)

/-- `write_sepc(v)` of 10_state.md R43: legalise, drop bit 0, drop bit 1 under `only32`, store. -/
def writeSepc (s : State) (v : Word) : State :=
  let w := setBit (sepcLegalize s.cfg v) 0 false
  setSepc s (if s.cfg.ialignSupport = .only32 then setBit w 1 false else w)

/-! ### Exceptions and the return from them -/

/-- The cause code of an exception (60_exceptions.md R140). -/
def causeCode : Cause → Nat
  | .illegalInstruction => 2

/-- `raise IllegalInstruction` (60_exceptions.md R144): no state is written and the run ends with
`Trapped(IllegalInstruction, pc)`, `pc` the address of the instruction that raised it. -/
def raiseIllegal (s : State) : Host.Outcome State Fault Refusal :=
  .fault (.trapped .illegalInstruction s.pc)

/-- The return from a supervisor trap (41_sret.md R131, R132): `pc` gets `read_sepc()`, `mode` gets `spp`,
`spp` gets U. -/
def returnFromTrap (s : State) : State :=
  setPc (setPrivilege s (sppMode s.spp) .U) (readSepc s)

/-- SRET raises the illegal instruction exception: in U-mode, and in S-mode with M_TSR = 1
(41_sret.md R133). -/
def sretDenied (s : State) : Bool :=
  s.mode == .U || (s.mode == .S && s.cfg.mTsr)

/-! ### CSR access -/

/-- The gate bit of a counter, low or high half (30_encoding.md R84, 40_csr_access.md R112). -/
def gateBit : Csr → Option (BitVec 5)
  | .counter n => some n
  | .counterHigh n => some n
  | .scounteren => none
  | .sscratch => none
  | .sepc => none

/-- 40_csr_access.md R100, case (1): the mode is below the one the number demands. -/
def modeTooLow (s : State) (c : BitVec 12) : Bool := decide (rank s.mode < csrLowestRank c)

/-- 40_csr_access.md R100, case (2): the access writes and the number is read-only. -/
def writesReadOnly (c : BitVec 12) (writes : Bool) : Bool := writes && csrReadOnly c

/-- 40_csr_access.md R100, case (3), the rule of R109: a counter, from U-mode, with its `scounteren` bit
clear. -/
def userGateClosed (s : State) (r : Csr) : Bool :=
  match gateBit r with
  | some n => s.mode == .U && !counterEnable s n
  | none => false

/-- 40_csr_access.md R100, case (4): a counter, from S-mode or U-mode, that M_COUNTER_GATE denies. -/
def machineGateClosed (s : State) (r : Csr) : Bool :=
  match gateBit r with
  | some n => s.mode != .M && !machineGate s n
  | none => false

/-- `csr_check(c, writes)` of 40_csr_access.md R100 raises, on an access to number `c`, which names `r`. -/
def csrDenied (s : State) (c : BitVec 12) (r : Csr) (writes : Bool) : Bool :=
  modeTooLow s c || writesReadOnly c writes || userGateClosed s r || machineGateClosed s r

/-- `CSR_read(c)` of 40_csr_access.md R101: the XLEN-bit value and the state after, in which only the count
of free values can differ. A counter read is a free value, new at every read (R110). -/
def csrRead (s : State) (r : Csr) : Word × State :=
  match r with
  | .scounteren => (s.scounteren.setWidth 64, s)
  | .sscratch => (s.sscratch, s)
  | .sepc => (readSepc s, s)
  | .counter _ => (fit s.cfg.sxlen (Config.counterDraw (csrNumber r) s.draws), takeDraw s)
  | .counterHigh _ => (fit s.cfg.sxlen (Config.counterDraw (csrNumber r) s.draws), takeDraw s)

/-- `CSR_write(c, v)` of 40_csr_access.md R102. It is never reached for a counter, because `csrDenied` case
(2) has raised; the state stands there unchanged. -/
def csrWrite (s : State) (r : Csr) (v : Word) : State :=
  match r with
  | .scounteren => setScounteren s (v.setWidth 32)
  | .sscratch => setSscratch s v
  | .sepc => writeSepc s v
  | .counter _ => s
  | .counterHigh _ => s

/-- The value a set or clear with mask `m` stores, from the value read (40_csr_access.md R113). -/
def maskApply (op : MaskOp) (old m : Word) : Word :=
  match op with
  | .set => old ||| m
  | .clear => old &&& ~~~ m

/-- The one open case of 40_csr_access.md R113: bit 1 is masked, the hidden bit is 1 and bit 1 of the mask
is 0. -/
def hiddenBitOpen (s : State) (m : Word) : Bool :=
  sepcMasked s && s.sepc.getLsbD 1 && !m.getLsbD 1

/-- `CSR_set(c, m)` and `CSR_clear(c, m)` of 40_csr_access.md R113; in the open case the new hidden bit is
a free value. -/
def csrMask (op : MaskOp) (s : State) (r : Csr) (m : Word) : State :=
  match r with
  | .sepc =>
    let t := writeSepc s (maskApply op (readSepc s) m)
    if hiddenBitOpen s m then takeDraw (setSepc t (setBit t.sepc 1 (Config.hiddenBitDraw op m s.draws)))
    else t
  | .scounteren => csrWrite s r (maskApply op (csrRead s r).1 m)
  | .sscratch => csrWrite s r (maskApply op (csrRead s r).1 m)
  | .counter _ => csrWrite s r (maskApply op (csrRead s r).1 m)
  | .counterHigh _ => csrWrite s r (maskApply op (csrRead s r).1 m)

/-! ### The shapes of the six CSR instructions -/

/-- An access to CSR number `c`: refused where 30_encoding.md R84 does not list it for the current XLEN
(R87), an exception where `csr_check` raises, before any state is written (60_exceptions.md R158), and
otherwise the state that `k` gives. -/
def csrAccess (s : State) (c : BitVec 12) (writes : Bool) (k : Csr → State) :
    Host.Outcome State Fault Refusal :=
  match csrOfNumber s.cfg.sxlen c with
  | none => .refused (.csr c)
  | some r => if csrDenied s c r writes then raiseIllegal s else .next (k r)

/-- The effect of CSRRW and CSRRWI (40_csr_access.md R103, R106): the source `v` was read before; the CSR
is read only when `rd` is not x0, then written, and the old value goes to `rd`. -/
def swapCsr (s : State) (rd : BitVec 5) (v : Word) (r : Csr) : State :=
  if rd = 0#5 then advancePc (csrWrite s r v)
  else
    let t := csrRead s r
    advancePc (writeReg (csrWrite t.2 r v) rd t.1)

/-- The effect of CSRRS, CSRRC, CSRRSI and CSRRCI (40_csr_access.md R104, R105, R107, R108): the CSR is
always read, set or cleared by the mask `m` only when the instruction writes, and the old value goes to
`rd`. -/
def maskCsr (op : MaskOp) (s : State) (rd : BitVec 5) (writes : Bool) (m : Word) (r : Csr) : State :=
  let t := csrRead s r
  let u := if writes then csrMask op t.2 r m else t.2
  advancePc (writeReg u rd t.1)

/-! ### Fetch -/

/-- The instruction at `pc`: the launch check of 20_memory.md R62, the word of PROGRAM at `pc` (R69), its
decoding (30_encoding.md R90). -/
def fetchInstr (s : State) : Except Refusal Instr :=
  if s.pc.toNat % s.ialign.bytes ≠ 0 then .error (.misalignedLaunch s.pc)
  else
    match programGet s.program s.pc.toNat with
    | none => .error (.left s.pc)
    | some w =>
      match decode s.cfg.sxlen w with
      | .ok i => .ok i
      | .error .length => .error (.length w)
      | .error .opcode => .error (.opcode w)
      | .error .csr => .error (.csr (w.extractLsb' 20 12))

/-- The launch that places one word where the next step fetches. PROGRAM holds words at multiples of 4
only, so a `pc` that is none is first brought down to one; any other `pc` stays. -/
def placeWord (s : State) (w : BitVec 32) : State :=
  let a := s.pc &&& ~~~ 3#64
  { s with pc := a, program := programPut s.program a.toNat w }

end Sys2Proof.Machine
end

