-- ==== Sys2Proof/Machine/Csr.lean ====
section
/-! DEFINITION. The six CSR access instructions (40_csr_access.md R103 to R108). -/

namespace Sys2Proof.Machine

/-- CSRRW, atomic read and write of a CSR (40_csr_access.md R103). -/
def execCsrrw (rd : BitVec 5) (c : BitVec 12) (rs1 : BitVec 5) (s : State) :
    Host.Outcome State Fault Refusal :=
  csrAccess s c true (swapCsr s rd (readReg s rs1))

/-- CSRRS, atomic read and set bits in a CSR (40_csr_access.md R104). -/
def execCsrrs (rd : BitVec 5) (c : BitVec 12) (rs1 : BitVec 5) (s : State) :
    Host.Outcome State Fault Refusal :=
  csrAccess s c (rs1 != 0#5) (maskCsr .set s rd (rs1 != 0#5) (readReg s rs1))

/-- CSRRC, atomic read and clear bits in a CSR (40_csr_access.md R105). -/
def execCsrrc (rd : BitVec 5) (c : BitVec 12) (rs1 : BitVec 5) (s : State) :
    Host.Outcome State Fault Refusal :=
  csrAccess s c (rs1 != 0#5) (maskCsr .clear s rd (rs1 != 0#5) (readReg s rs1))

/-- CSRRWI, CSRRW with a 5-bit immediate source (40_csr_access.md R106). -/
def execCsrrwi (rd : BitVec 5) (c : BitVec 12) (uimm : BitVec 5) (s : State) :
    Host.Outcome State Fault Refusal :=
  csrAccess s c true (swapCsr s rd (zextUimm uimm))

/-- CSRRSI, CSRRS with a 5-bit immediate mask (40_csr_access.md R107). -/
def execCsrrsi (rd : BitVec 5) (c : BitVec 12) (uimm : BitVec 5) (s : State) :
    Host.Outcome State Fault Refusal :=
  csrAccess s c (uimm != 0#5) (maskCsr .set s rd (uimm != 0#5) (zextUimm uimm))

/-- CSRRCI, CSRRC with a 5-bit immediate mask (40_csr_access.md R108). -/
def execCsrrci (rd : BitVec 5) (c : BitVec 12) (uimm : BitVec 5) (s : State) :
    Host.Outcome State Fault Refusal :=
  csrAccess s c (uimm != 0#5) (maskCsr .clear s rd (uimm != 0#5) (zextUimm uimm))

end Sys2Proof.Machine
end

