-- ==== Sys2Proof/Machine/Sret.lean ====
section
/-! DEFINITION. The SRET instruction (41_sret.md). -/

namespace Sys2Proof.Machine

/-- SRET, return from a supervisor trap (41_sret.md R131, R133). The interrupt-enable bits it moves in the
full volume are left out by the spec (R134, log 12). -/
def execSret (s : State) : Host.Outcome State Fault Refusal :=
  if sretDenied s then raiseIllegal s else .next (returnFromTrap s)

end Sys2Proof.Machine
end

