-- ==== Sys2Proof/Machine/Step.lean ====
section
/-! DEFINITION. One step: fetch and decode the instruction at `pc` and execute it. -/

namespace Sys2Proof.Machine

/-- One step of the hart (20_memory.md R69, 30_encoding.md R90). It adds nothing around `exec`: each meaning
sets `pc` itself. -/
def step (s : State) : Host.Outcome State Fault Refusal :=
  match fetchInstr s with
  | .ok i => exec i s
  | .error r => .refused r

/-- The state with the word of an instruction stored where the next step fetches. -/
def State.withFetchWord (s : State) (nbits w : Nat) : State :=
  placeWord s (BitVec.ofNat 32 (w % 2 ^ nbits))

end Sys2Proof.Machine
end

