-- ==== Sys2Proof/Safety.lean ====
section
/-! DEFINITION. What counts as a launch state, and as a run without a trap, in the terms claims use.

Every claim about a run stands under the spec's named premise NoInterruptTaken (60_exceptions.md R146): between
launch and the end of the run the hart takes no interrupt and no trap other than the `Trapped` outcome that
ends it. The model has no step by which one could arrive (log 6). -/

namespace Sys2Proof.Safety

open Sys2Proof.Machine

/-- What every launch state satisfies and every step keeps: 10_state.md R57 (a) to (f), the alignment of `pc`
(20_memory.md R62), the widths of R20, and the form of PROGRAM (20_memory.md R69). -/
structure Inv (s : State) : Prop where
  /-- R57 (a). -/
  hardwired : s.scounteren &&& s.cfg.scounterenHz = 0#32
  /-- R57 (b). -/
  sepcBit0 : s.sepc.getLsbD 0 = false
  /-- R57 (c). -/
  only32 : s.cfg.ialignSupport = .only32 → s.sepc.getLsbD 1 = false ∧ s.ialign = .i32
  /-- R57 (d). -/
  only16 : s.cfg.ialignSupport = .only16 → s.ialign = .i16
  /-- R57 (e). -/
  sepcAligned : (readSepc s).toNat % s.ialign.bytes = 0
  /-- R57 (f). -/
  zeroReg : readReg s 0#5 = 0#64
  /-- 20_memory.md R62. -/
  pcAligned : s.pc.toNat % s.ialign.bytes = 0
  /-- `pc` is XLEN bits wide (10_state.md R20). -/
  pcFits : Fits s.cfg.sxlen s.pc
  /-- `sscratch` is SXLEN bits wide (10_state.md R30). -/
  sscratchFits : Fits s.cfg.sxlen s.sscratch
  /-- `sepc` is SXLEN bits wide (10_state.md R35). -/
  sepcFits : Fits s.cfg.sxlen s.sepc
  /-- Every general register is XLEN bits wide (10_state.md R51). -/
  regsFit : ∀ n : BitVec 5, Fits s.cfg.sxlen (readReg s n)
  /-- PROGRAM is in its canonical form (20_memory.md R69). -/
  programOk : programWf s.cfg.sxlen s.program = true

/-- A run of at most `k` steps that raises no exception. -/
def NoTrap (k : Nat) (s : State) : Prop :=
  ∀ f : Fault, Sys2Proof.core.run k s ≠ .fault f

end Sys2Proof.Safety
end

