-- ==== Sys2Proof/WellFormed.lean ====
section
/-! DEFINITION. Which instructions are well formed on a machine of a given XLEN. -/

namespace Sys2Proof

/-- An instruction is well formed for an XLEN when the CSR number it names, if any, is listed by
30_encoding.md R84 for that XLEN. Its other operands, `rd` and `rs1` or `uimm`, may be any 5-bit value. -/
def wellFormed (x : Xlen) (i : Instr) : Bool :=
  csrListed x i

end Sys2Proof
end

