-- ==== Sys2Proof/Certificates/Slice0/Obligations.lean ====
section
/-! DEFINITION. The statements for the provers. Every statement holds for every value of every launch
parameter, since the parameters are fields of the state it quantifies over (log 2), and stands under the
spec's premise NoInterruptTaken (60_exceptions.md R146, log 6). What the spec itself states from general
knowledge or by its own decision (encodings, CSR numbers, the CSR instructions, SRET, the modes) is marked in
log 10, 11, 14, 15, 16, 19, 23 and 30. -/

namespace Sys2Proof.Claims

open Sys2Proof Sys2Proof.Machine

/-! ### Words the statements are written in, spelled out from the spec and not from the model's functions -/

/-- A counter number of 30_encoding.md R84 for the XLEN. -/
def CounterNumber (x : Xlen) (c : BitVec 12) : Prop :=
  (0xC00 ≤ c.toNat ∧ c.toNat ≤ 0xC1F) ∨ (x = .x32 ∧ 0xC80 ≤ c.toNat ∧ c.toNat ≤ 0xC9F)

/-- One of the three supervisor registers of 30_encoding.md R84. -/
def SupervisorNumber (c : BitVec 12) : Prop :=
  c = 0x106#12 ∨ c = 0x140#12 ∨ c = 0x141#12

/-- A number of the table of 30_encoding.md R84 for the XLEN. -/
def ListedNumber (x : Xlen) (c : BitVec 12) : Prop :=
  SupervisorNumber c ∨ CounterNumber x c

/-- `trap`: the outcome of a raised exception at the instruction of this state (60_exceptions.md R144). -/
def trap (s : State) : Host.Outcome State Fault Refusal :=
  .fault (.trapped .illegalInstruction s.pc)

/-- The four cases in which `csr_check(c, writes)` raises (40_csr_access.md R100), c a listed number. -/
def CheckRaises (s : State) (c : BitVec 12) (writes : Bool) : Prop :=
  (s.mode = .U ∧ 0 < c.toNat / 256 % 4) ∨
  (s.mode = .S ∧ 1 < c.toNat / 256 % 4) ∨
  (writes = true ∧ c.toNat / 1024 = 3) ∨
  (CounterNumber s.cfg.sxlen c ∧ s.mode = .U ∧ s.scounteren.getLsbD (c.toNat % 32) = false) ∨
  (CounterNumber s.cfg.sxlen c ∧ s.mode ≠ .M ∧ s.cfg.mCounterGate.getLsbD (c.toNat % 32) = false)

/-- Bit 1 of `sepc` is masked (10_state.md R38). -/
def Masked (s : State) : Prop := s.cfg.ialignSupport = .both ∧ s.ialign = .i32

/-- `v` is what a read of `sepc` returns: the stored value, with bit 1 zero while it is masked
(10_state.md R41). -/
def SepcReadsAs (s : State) (v : Word) : Prop :=
  (Masked s → ∀ i, v.getLsbD i = (s.sepc.getLsbD i && i != 1)) ∧ (¬ Masked s → v = s.sepc)

/-- `v` is what an explicit read of the listed number `c` returns: of a supervisor register its value as it
reads, of a counter some XLEN-bit value (40_csr_access.md R101, R110). -/
def CsrReadsAs (s : State) (c : BitVec 12) (v : Word) : Prop :=
  (c = 0x106#12 → v = s.scounteren.setWidth 64) ∧
  (c = 0x140#12 → v = s.sscratch) ∧
  (c = 0x141#12 → SepcReadsAs s v) ∧
  (CounterNumber s.cfg.sxlen c → v.toNat < 2 ^ s.cfg.sxlen.bits)

/-- Bit `i` of the stored form of `sepc` after `write_sepc(v)` (10_state.md R43). -/
def writtenSepcBit (s : State) (v : Word) (i : Nat) : Bool :=
  (sepcLegalize s.cfg v).getLsbD i && decide (i < s.cfg.sxlen.bits) && i != 0 &&
    !(i == 1 && s.cfg.ialignSupport == .only32)

/-- The three registers of `t` are those of `s` after `CSR_write(c, v)` (40_csr_access.md R102), `c` a
supervisor register. -/
def CsrHolds (s t : State) (c : BitVec 12) (v : Word) : Prop :=
  t.scounteren = (if c = 0x106#12 then v.setWidth 32 &&& ~~~ s.cfg.scounterenHz else s.scounteren) ∧
  t.sscratch = (if c = 0x140#12 then v else s.sscratch) ∧
  (c = 0x141#12 → ∀ i, t.sepc.getLsbD i = writtenSepcBit s v i) ∧
  (c ≠ 0x141#12 → t.sepc = s.sepc)

/-- The three registers of `t` are those of `s` after a set or clear of `c` with mask `m` that computes `v`
from the value read (40_csr_access.md R113): as after a write of `v`, but that bit 1 of `sepc` may hold
either value when it is masked, the hidden bit is 1 and bit 1 of the mask is 0. -/
def CsrMasked (s t : State) (c : BitVec 12) (m v : Word) : Prop :=
  t.scounteren = (if c = 0x106#12 then v.setWidth 32 &&& ~~~ s.cfg.scounterenHz else s.scounteren) ∧
  t.sscratch = (if c = 0x140#12 then v else s.sscratch) ∧
  (c = 0x141#12 → ∀ i, (i = 1 → ¬ (Masked s ∧ s.sepc.getLsbD 1 = true ∧ m.getLsbD 1 = false)) →
    t.sepc.getLsbD i = writtenSepcBit s v i) ∧
  (c ≠ 0x141#12 → t.sepc = s.sepc)

/-- No CSR changes. -/
def CsrsSame (s t : State) : Prop :=
  t.scounteren = s.scounteren ∧ t.sscratch = s.sscratch ∧ t.sepc = s.sepc

/-- No launch parameter, no word of PROGRAM and no `ialign` changes. -/
def LaunchSame (s t : State) : Prop :=
  t.cfg = s.cfg ∧ t.program = s.program ∧ t.ialign = s.ialign ∧
    ∀ a, programGet t.program a = programGet s.program a

/-- What every CSR instruction with destination `rd` leaves alone, and its `pc` (10_state.md R52): every
register but `rd`, the privilege, the launch; `rd` = x0 discards the write. -/
def CsrFrame (rd : BitVec 5) (s t : State) : Prop :=
  LaunchSame s t ∧ t.mode = s.mode ∧ t.spp = s.spp ∧
  (∀ n, n ≠ rd → readReg t n = readReg s n) ∧ readReg t 0#5 = 0#64 ∧
  t.pc.toNat = (s.pc.toNat + 4) % 2 ^ s.cfg.sxlen.bits

/-- A read-and-modify CSR instruction (CSRRS, CSRRC and their immediate forms) ends in `t`: some value `old`
is read, it goes to `rd`, and with `writes` the CSR is set or cleared by the mask `m` (`f old` is the value
with the bits set or cleared). -/
def Modifies (s t : State) (rd : BitVec 5) (c : BitVec 12) (writes : Bool) (m : Word)
    (f : Word → Word) : Prop :=
  ∃ old, CsrReadsAs s c old ∧ CsrFrame rd s t ∧ (rd ≠ 0#5 → readReg t rd = old) ∧
    (writes = true → CsrMasked s t c m (f old)) ∧ (writes = false → CsrsSame s t)

/-- A CSR write instruction (CSRRW, CSRRWI) with source value `v` ends in `t`. -/
def Swaps (s t : State) (rd : BitVec 5) (c : BitVec 12) (v : Word) : Prop :=
  CsrHolds s t c v ∧ CsrFrame rd s t ∧
    (rd ≠ 0#5 → ∃ old, CsrReadsAs s c old ∧ readReg t rd = old)

/-- An outcome with its next state, if it has one, changed by `g`. -/
def onNext (g : State → State) :
    Host.Outcome State Fault Refusal → Host.Outcome State Fault Refusal
  | .next t => .next (g t)
  | .fault f => .fault f
  | .refused q => .refused q

end Sys2Proof.Claims

section Statements

open Sys2Proof Sys2Proof.Machine Sys2Proof.Safety Sys2Proof.Claims

/-! ### Decoding -/

/-- Decode and encode agree, every operand at every value: the fields of the word of an instruction give the
instruction back, and `decode` answers it exactly when its CSR number is listed for the XLEN
(30_encoding.md R81 to R84, R86, R90). -/
def Obligations.DecodeOfEncodeIsTheInstruction : Prop :=
  ∀ i : Instr, decodeFields (encode i) = .ok i ∧
    ∀ x, decode x (encode i) = if wellFormed x i then .ok i else .error .csr

/-- No bit of a decoded word is dropped: the word decodes to nothing that another word also spells
(30_encoding.md R81 to R83, R86). -/
def Obligations.EncodeOfDecodeIsTheWord : Prop :=
  ∀ (x : Xlen) (w : BitVec 32) (i : Instr), decode x w = .ok i → encode i = w ∧ wellFormed x i = true

/-- 30_encoding.md R83: a word is instruction M when `w & mask = match`, its operands in their fields, and
the seven patterns are pairwise disjoint. -/
def Obligations.RowPatternsSelectTheInstruction : Prop :=
  (∀ w : BitVec 32,
    (decodeFields w = .ok (.csrrw (w.extractLsb' 7 5) (w.extractLsb' 20 12) (w.extractLsb' 15 5)) ↔
      w &&& 0x0000707F#32 = 0x00001073#32) ∧
    (decodeFields w = .ok (.csrrs (w.extractLsb' 7 5) (w.extractLsb' 20 12) (w.extractLsb' 15 5)) ↔
      w &&& 0x0000707F#32 = 0x00002073#32) ∧
    (decodeFields w = .ok (.csrrc (w.extractLsb' 7 5) (w.extractLsb' 20 12) (w.extractLsb' 15 5)) ↔
      w &&& 0x0000707F#32 = 0x00003073#32) ∧
    (decodeFields w = .ok (.csrrwi (w.extractLsb' 7 5) (w.extractLsb' 20 12) (w.extractLsb' 15 5)) ↔
      w &&& 0x0000707F#32 = 0x00005073#32) ∧
    (decodeFields w = .ok (.csrrsi (w.extractLsb' 7 5) (w.extractLsb' 20 12) (w.extractLsb' 15 5)) ↔
      w &&& 0x0000707F#32 = 0x00006073#32) ∧
    (decodeFields w = .ok (.csrrci (w.extractLsb' 7 5) (w.extractLsb' 20 12) (w.extractLsb' 15 5)) ↔
      w &&& 0x0000707F#32 = 0x00007073#32) ∧
    (decodeFields w = .ok .sret ↔ w &&& 0xFFFFFFFF#32 = 0x10200073#32)) ∧
  [((0x0000707F#32 : BitVec 32), (0x00001073#32 : BitVec 32)), (0x0000707F#32, 0x00002073#32),
    (0x0000707F#32, 0x00003073#32), (0x0000707F#32, 0x00005073#32), (0x0000707F#32, 0x00006073#32),
    (0x0000707F#32, 0x00007073#32), (0xFFFFFFFF#32, 0x10200073#32)].Pairwise
    (fun p q => ∀ w : BitVec 32, ¬ (w &&& p.1 = p.2 ∧ w &&& q.1 = q.2))

/-- 30_encoding.md R90, the spec's own inference from R80, R83, R84, R87 and R88: `decode(w)` on every word,
line by line. -/
def Obligations.DecodeFollowsItsPseudocode : Prop :=
  ∀ (x : Xlen) (w : BitVec 32),
    (w.toNat % 4 ≠ 3 → decode x w = .error .length) ∧
    (w = 0x10200073#32 → decode x w = .ok .sret) ∧
    (w.toNat % 4 = 3 → w.toNat % 128 ≠ 0x73 → decode x w = .error .opcode) ∧
    (w.toNat % 128 = 0x73 → w ≠ 0x10200073#32 → ¬ ListedNumber x (w.extractLsb' 20 12) →
      decode x w = if w.toNat / 4096 % 8 ∈ [1, 2, 3, 5, 6, 7] then .error .csr else .error .opcode) ∧
    (w.toNat % 128 = 0x73 → w ≠ 0x10200073#32 → ListedNumber x (w.extractLsb' 20 12) →
      decode x w = match w.toNat / 4096 % 8 with
        | 1 => .ok (.csrrw (w.extractLsb' 7 5) (w.extractLsb' 20 12) (w.extractLsb' 15 5))
        | 2 => .ok (.csrrs (w.extractLsb' 7 5) (w.extractLsb' 20 12) (w.extractLsb' 15 5))
        | 3 => .ok (.csrrc (w.extractLsb' 7 5) (w.extractLsb' 20 12) (w.extractLsb' 15 5))
        | 5 => .ok (.csrrwi (w.extractLsb' 7 5) (w.extractLsb' 20 12) (w.extractLsb' 15 5))
        | 6 => .ok (.csrrsi (w.extractLsb' 7 5) (w.extractLsb' 20 12) (w.extractLsb' 15 5))
        | 7 => .ok (.csrrci (w.extractLsb' 7 5) (w.extractLsb' 20 12) (w.extractLsb' 15 5))
        | _ => .error .opcode)

/-- Words of 95_test_vectors.md section 2.7 (V25). -/
def Obligations.VectorWordsDecode : Prop :=
  decode .x32 0x10200073#32 = .ok .sret ∧
  decode .x32 0x14051573#32 = .ok (.csrrw 10#5 0x140#12 10#5) ∧
  decode .x32 0x1062A373#32 = .ok (.csrrs 6#5 0x106#12 5#5) ∧
  decode .x32 0x1062B373#32 = .ok (.csrrc 6#5 0x106#12 5#5) ∧
  decode .x32 0x1062D073#32 = .ok (.csrrwi 0#5 0x106#12 5#5) ∧
  decode .x32 0x10616073#32 = .ok (.csrrsi 0#5 0x106#12 2#5) ∧
  decode .x32 0x140872F3#32 = .ok (.csrrci 5#5 0x140#12 16#5) ∧
  decode .x32 0x00000073#32 = .error .opcode ∧
  decode .x32 0x00000001#32 = .error .length ∧
  decode .x32 0x301022F3#32 = .error .csr ∧
  decode .x64 0xC8002573#32 = .error .csr

/-! ### Steps -/

/-- A step runs the decoded instruction, and adds nothing around it: with `pc` a multiple of `ialign / 8` and
the word `w` of PROGRAM there (20_memory.md R69). -/
def Obligations.StepRunsTheDecodedInstruction : Prop :=
  ∀ (s : State) (w : BitVec 32) (i : Instr), s.pc.toNat % s.ialign.bytes = 0 →
    programGet s.program s.pc.toNat = some w → decode s.cfg.sxlen w = .ok i → step s = exec i s

/-- A word that does not decode ends the run with the refusal of its reason (30_encoding.md R87), a `pc`
outside PROGRAM, which every `pc` that is no multiple of 4 is, with Left(pc) (20_memory.md R69), and a `pc`
that is no multiple of `ialign / 8` is refused. Of the last, 20_memory.md R62 says only that a launch at such a
`pc` is refused: that the refusal is made at the fetch of every step is the model's choice (log 18, DESIGN
CHOICE). -/
def Obligations.StepRefusals : Prop :=
  ∀ s : State,
    (s.pc.toNat % s.ialign.bytes ≠ 0 → step s = .refused (.misalignedLaunch s.pc)) ∧
    (s.pc.toNat % s.ialign.bytes = 0 →
      (s.pc.toNat % 4 ≠ 0 → step s = .refused (.left s.pc)) ∧
      (programGet s.program s.pc.toNat = none → step s = .refused (.left s.pc)) ∧
      (∀ w, programGet s.program s.pc.toNat = some w →
        (decode s.cfg.sxlen w = .error .length → step s = .refused (.length w)) ∧
        (decode s.cfg.sxlen w = .error .opcode → step s = .refused (.opcode w)) ∧
        (decode s.cfg.sxlen w = .error .csr → step s = .refused (.csr (w.extractLsb' 20 12)))))

/-- An instruction is refused exactly when it names a CSR number that is not listed for the current XLEN
(30_encoding.md R87 (b)). -/
def Obligations.UnlistedCsrNumberIsRefused : Prop :=
  ∀ (i : Instr) (s : State) (q : Refusal), exec i s = .refused q ↔
    ∃ c, i.csrField = some c ∧ ¬ ListedNumber s.cfg.sxlen c ∧ q = .csr c

/-! ### The access check -/

/-- 40_csr_access.md R100: an access to a listed number raises in the four cases and in no other, and what
does not raise answers a next state. -/
def Obligations.AccessRaisesInFourCases : Prop :=
  ∀ (i : Instr) (c : BitVec 12) (s : State), i.csrField = some c → ListedNumber s.cfg.sxlen c →
    (CheckRaises s c i.writesCsr → exec i s = trap s) ∧
    (¬ CheckRaises s c i.writesCsr → ∃ t, exec i s = .next t)

/-- 60_exceptions.md R140: every exception is the illegal instruction exception, with cause code 2; it
carries the `pc` of the instruction that raised it. -/
def Obligations.EveryExceptionIsIllegalInstruction : Prop :=
  (∀ (s : State) (f : Fault), step s = .fault f → f = .trapped .illegalInstruction s.pc) ∧
    ∀ k : Cause, causeCode k = 2

/-- 40_csr_access.md R114: the three registers are accessible with mode S and mode M, and any access from
mode U raises. -/
def Obligations.SupervisorRegistersNeedSupervisorMode : Prop :=
  ∀ (i : Instr) (c : BitVec 12) (s : State), i.csrField = some c → SupervisorNumber c →
    (s.mode = .S ∨ s.mode = .M → ∃ t, exec i s = .next t) ∧ (s.mode = .U → exec i s = trap s)

/-- 10_state.md R24: an access to `scounteren` is never refused, and never faulted for its absence: from S
and M every access goes through, whatever the parameters. -/
def Obligations.ScounterenIsImplemented : Prop :=
  ∀ (i : Instr) (s : State), i.csrField = some 0x106#12 →
    (∀ q, exec i s ≠ .refused q) ∧ (s.mode ≠ .U → ∃ t, exec i s = .next t)

/-! ### The instructions: encoding, where they raise, where they complete and what they leave -/

/-- 40_csr_access.md R103, CSRRW. -/
def Obligations.CsrrwReadsAndWrites : Prop :=
  ∀ (rd : BitVec 5) (c : BitVec 12) (rs1 : BitVec 5),
    decodeFields (c ++ rs1 ++ 0b001#3 ++ rd ++ 0b1110011#7) = .ok (.csrrw rd c rs1) ∧
    ∀ s : State, Inv s → ListedNumber s.cfg.sxlen c →
      (CounterNumber s.cfg.sxlen c → exec (.csrrw rd c rs1) s = trap s) ∧
      (CheckRaises s c true → exec (.csrrw rd c rs1) s = trap s) ∧
      (¬ CheckRaises s c true →
        ∃ t, exec (.csrrw rd c rs1) s = .next t ∧ Swaps s t rd c (readReg s rs1))

/-- 40_csr_access.md R104, CSRRS. -/
def Obligations.CsrrsReadsAndSets : Prop :=
  ∀ (rd : BitVec 5) (c : BitVec 12) (rs1 : BitVec 5),
    decodeFields (c ++ rs1 ++ 0b010#3 ++ rd ++ 0b1110011#7) = .ok (.csrrs rd c rs1) ∧
    ∀ s : State, Inv s → ListedNumber s.cfg.sxlen c →
      (CheckRaises s c (rs1 != 0#5) → exec (.csrrs rd c rs1) s = trap s) ∧
      (¬ CheckRaises s c (rs1 != 0#5) → ∃ t, exec (.csrrs rd c rs1) s = .next t ∧
        Modifies s t rd c (rs1 != 0#5) (readReg s rs1) (fun old => old ||| readReg s rs1))

/-- 40_csr_access.md R105, CSRRC. -/
def Obligations.CsrrcReadsAndClears : Prop :=
  ∀ (rd : BitVec 5) (c : BitVec 12) (rs1 : BitVec 5),
    decodeFields (c ++ rs1 ++ 0b011#3 ++ rd ++ 0b1110011#7) = .ok (.csrrc rd c rs1) ∧
    ∀ s : State, Inv s → ListedNumber s.cfg.sxlen c →
      (CheckRaises s c (rs1 != 0#5) → exec (.csrrc rd c rs1) s = trap s) ∧
      (¬ CheckRaises s c (rs1 != 0#5) → ∃ t, exec (.csrrc rd c rs1) s = .next t ∧
        Modifies s t rd c (rs1 != 0#5) (readReg s rs1) (fun old => old &&& ~~~ readReg s rs1))

/-- 40_csr_access.md R106, CSRRWI: the value written is the zero-extended immediate. -/
def Obligations.CsrrwiReadsAndWrites : Prop :=
  ∀ (rd : BitVec 5) (c : BitVec 12) (uimm : BitVec 5),
    decodeFields (c ++ uimm ++ 0b101#3 ++ rd ++ 0b1110011#7) = .ok (.csrrwi rd c uimm) ∧
    ∀ s : State, Inv s → ListedNumber s.cfg.sxlen c →
      (CheckRaises s c true → exec (.csrrwi rd c uimm) s = trap s) ∧
      (¬ CheckRaises s c true →
        ∃ t, exec (.csrrwi rd c uimm) s = .next t ∧ Swaps s t rd c (BitVec.ofNat 64 uimm.toNat))

/-- 40_csr_access.md R107, CSRRSI. -/
def Obligations.CsrrsiReadsAndSets : Prop :=
  ∀ (rd : BitVec 5) (c : BitVec 12) (uimm : BitVec 5),
    decodeFields (c ++ uimm ++ 0b110#3 ++ rd ++ 0b1110011#7) = .ok (.csrrsi rd c uimm) ∧
    ∀ s : State, Inv s → ListedNumber s.cfg.sxlen c →
      (CheckRaises s c (uimm != 0#5) → exec (.csrrsi rd c uimm) s = trap s) ∧
      (¬ CheckRaises s c (uimm != 0#5) → ∃ t, exec (.csrrsi rd c uimm) s = .next t ∧
        Modifies s t rd c (uimm != 0#5) (BitVec.ofNat 64 uimm.toNat)
          (fun old => old ||| BitVec.ofNat 64 uimm.toNat))

/-- 40_csr_access.md R108, CSRRCI. -/
def Obligations.CsrrciReadsAndClears : Prop :=
  ∀ (rd : BitVec 5) (c : BitVec 12) (uimm : BitVec 5),
    decodeFields (c ++ uimm ++ 0b111#3 ++ rd ++ 0b1110011#7) = .ok (.csrrci rd c uimm) ∧
    ∀ s : State, Inv s → ListedNumber s.cfg.sxlen c →
      (CheckRaises s c (uimm != 0#5) → exec (.csrrci rd c uimm) s = trap s) ∧
      (¬ CheckRaises s c (uimm != 0#5) → ∃ t, exec (.csrrci rd c uimm) s = .next t ∧
        Modifies s t rd c (uimm != 0#5) (BitVec.ofNat 64 uimm.toNat)
          (fun old => old &&& ~~~ BitVec.ofNat 64 uimm.toNat))

/-- 41_sret.md R133: who may execute SRET; M_TSR is 0 by default, which `State.reset` holds. -/
def Obligations.SretNeedsItsMode : Prop :=
  State.reset.cfg.mTsr = false ∧ ∀ s : State,
    (s.mode = .U → exec .sret s = trap s) ∧
    (s.mode = .S → s.cfg.mTsr = true → exec .sret s = trap s) ∧
    (s.mode = .S → s.cfg.mTsr = false → ∃ t, exec .sret s = .next t) ∧
    (s.mode = .M → ∃ t, exec .sret s = .next t ∧
      (s.spp = .U → t.mode = .U) ∧ (s.spp = .S → t.mode = .S))

/-- 41_sret.md R131: SRET's word, its target, the mode after it, and that it changes nothing else. -/
def Obligations.SretReturns : Prop :=
  decodeFields 0x10200073#32 = .ok .sret ∧
  ∀ s : State, Inv s →
    (s.mode = .U ∨ (s.mode = .S ∧ s.cfg.mTsr = true) → exec .sret s = trap s) ∧
    (¬ (s.mode = .U ∨ (s.mode = .S ∧ s.cfg.mTsr = true)) →
      ∃ t, exec .sret s = .next t ∧ SepcReadsAs s t.pc ∧
        (s.spp = .U → t.mode = .U) ∧ (s.spp = .S → t.mode = .S) ∧ t.spp = .U ∧
        t.pc.toNat % s.ialign.bytes = 0 ∧ CsrsSame s t ∧ LaunchSame s t ∧
        (∀ n, readReg t n = readReg s n) ∧ t.draws = s.draws ∧
        (programGet t.program t.pc.toNat = none → step t = .refused (.left t.pc)))

/-! ### Counters -/

/-- 40_csr_access.md R109: in U-mode an access to a counter whose `scounteren` bit is clear raises; with the
bit set `scounteren` puts no obstacle in the way: a read goes through where M_COUNTER_GATE permits it. -/
def Obligations.UserCounterReadNeedsItsBit : Prop :=
  ∀ (i : Instr) (c : BitVec 12) (s : State), i.csrField = some c → CounterNumber s.cfg.sxlen c →
    s.mode = .U →
    (s.scounteren.getLsbD (c.toNat % 32) = false → exec i s = trap s) ∧
    (s.scounteren.getLsbD (c.toNat % 32) = true → i.writesCsr = false →
      s.cfg.mCounterGate.getLsbD (c.toNat % 32) = true → ∃ t, exec i s = .next t)

/-- 40_csr_access.md R111: from S-mode and M-mode the value of `scounteren` has no effect on an access to a
counter; from S-mode M_COUNTER_GATE decides a read, from M-mode a read is always permitted. -/
def Obligations.ScounterenGovernsUserModeOnly : Prop :=
  ∀ (i : Instr) (c : BitVec 12) (s : State), i.csrField = some c → CounterNumber s.cfg.sxlen c →
    s.mode ≠ .U →
    (∀ v, exec i { s with scounteren := v } = onNext (fun t => { t with scounteren := v }) (exec i s)) ∧
    (i.writesCsr = false → s.mode = .S →
      (s.cfg.mCounterGate.getLsbD (c.toNat % 32) = true → ∃ t, exec i s = .next t) ∧
      (s.cfg.mCounterGate.getLsbD (c.toNat % 32) = false → exec i s = trap s)) ∧
    (i.writesCsr = false → s.mode = .M → ∃ t, exec i s = .next t)

/-- 40_csr_access.md R112, the spec's own inference from R100 and R103 to R108: only four forms on a counter
can pass, and all four read; the writing forms raise whatever `scounteren` holds; a high half is gated by the
bit of its low half. That a form reads is said by `t.draws = s.draws + 1`: the free value is R110's, the count
of them is the model's form and no rule of the spec (log 7, DESIGN CHOICE). -/
def Obligations.OnlyReadingFormsPassOnACounter : Prop :=
  ∀ (i : Instr) (c : BitVec 12) (s : State), i.csrField = some c → CounterNumber s.cfg.sxlen c →
    (∀ t, exec i s = .next t →
      (∃ rd, i = .csrrs rd c 0#5 ∨ i = .csrrc rd c 0#5 ∨ i = .csrrsi rd c 0#5 ∨ i = .csrrci rd c 0#5) ∧
        t.draws = s.draws + 1) ∧
    (i.writesCsr = true → exec i s = trap s) ∧
    (s.cfg.sxlen = .x32 → 0xC80 ≤ c.toNat → s.mode = .U →
      s.scounteren.getLsbD (c.toNat - 0xC80) = false → exec i s = trap s)

/-- 40_csr_access.md R110, D5: a permitted counter read puts the next free value of the run in `rd` as an
XLEN-bit value, and changes no CSR; the value itself is constrained by nothing (log 7, DESIGN CHOICE of
form). -/
def Obligations.CounterReadReturnsAFreeValue : Prop :=
  ∀ (i : Instr) (rd : BitVec 5) (c : BitVec 12) (s t : State), i.rdField = some rd →
    i.csrField = some c → CounterNumber s.cfg.sxlen c → exec i s = .next t →
    CsrsSame s t ∧ CsrFrame rd s t ∧ t.draws = s.draws + 1 ∧
    (rd ≠ 0#5 → (readReg t rd).toNat =
      (Config.counterDraw c s.draws).toNat % 2 ^ s.cfg.sxlen.bits)

/-! ### `scounteren` -/

/-- 10_state.md R27, R28, the spec's own inference and its decision D24 (log 15): a write of any value is
accepted and stores the low 32 bits less the hardwired ones, and a later read returns exactly that,
zero-extended; the number is 0x106 and the least mode S. -/
def Obligations.ScounterenStoresWhatIsNotHardwired : Prop :=
  ∀ (s : State) (rs1 : BitVec 5),
    (s.mode = .U → exec (.csrrw 0#5 0x106#12 rs1) s = trap s) ∧
    (s.mode ≠ .U →
      (∃ t, exec (.csrrw 0#5 0x106#12 rs1) s = .next t ∧
        t.scounteren = (readReg s rs1).setWidth 32 &&& ~~~ s.cfg.scounterenHz) ∧
      ∀ (u : State) (rd : BitVec 5), u.cfg = s.cfg → u.mode ≠ .U → rd ≠ 0#5 →
        u.scounteren = (readReg s rs1).setWidth 32 &&& ~~~ s.cfg.scounterenHz →
        ∃ v, exec (.csrrs rd 0x106#12 0#5) u = .next v ∧
          readReg v rd = ((readReg s rs1).setWidth 32 &&& ~~~ s.cfg.scounterenHz).setWidth 64)

/-- 10_state.md R25: a bit hardwired to zero reads 0 always, no write changes it, and a U-mode read of its
counter raises. -/
def Obligations.HardwiredBitsStayZero : Prop :=
  ∀ (s : State) (n : Nat) (i : Instr), Inv s → n < 32 → s.cfg.scounterenHz.getLsbD n = true →
    s.scounteren.getLsbD n = false ∧
    (∀ t, exec i s = .next t → t.scounteren.getLsbD n = false) ∧
    (∀ t rd, i.csrField = some 0x106#12 → i.rdField = some rd → exec i s = .next t →
      (readReg t rd).getLsbD n = false) ∧
    (∀ c, i.csrField = some c → CounterNumber s.cfg.sxlen c → c.toNat % 32 = n → s.mode = .U →
      exec i s = trap s)

/-! ### `sscratch` -/

/-- 10_state.md R30: every SXLEN bit of `sscratch` holds the last value written, with no reserved, hardwired
or masked bit; it is the supervisor's. -/
def Obligations.SscratchHoldsTheLastValueWritten : Prop :=
  ∀ (s : State) (rs1 : BitVec 5), Inv s →
    (s.mode = .U → exec (.csrrw 0#5 0x140#12 rs1) s = trap s) ∧
    (s.mode ≠ .U →
      ∃ t, exec (.csrrw 0#5 0x140#12 rs1) s = .next t ∧ t.sscratch = readReg s rs1) ∧
    ∀ rd, rd ≠ 0#5 → s.mode ≠ .U →
      ∃ v, exec (.csrrs rd 0x140#12 0#5) s = .next v ∧ readReg v rd = s.sscratch

/-- 10_state.md R32, the spec's own inference (log 29): `sscratch` changes only by an explicit CSR write and
is observed only by an explicit CSR read: an instruction that does not name it runs alike whatever it holds.
-/
def Obligations.SscratchHasNoImplicitUse : Prop :=
  ∀ (i : Instr) (s : State),
    (∀ t, exec i s = .next t → t.sscratch ≠ s.sscratch →
      i.csrField = some 0x140#12 ∧ i.writesCsr = true) ∧
    (i.csrField ≠ some 0x140#12 → ∀ v,
      exec i { s with sscratch := v } = onNext (fun t => { t with sscratch := v }) (exec i s))

/-- 10_state.md R33 (the swap is one CSRRW with the same general register as source and destination):
swapping twice gives both values back. -/
def Obligations.SscratchSwapTwiceRestores : Prop :=
  ∀ (s : State) (a : BitVec 5), Inv s → s.mode ≠ .U → a ≠ 0#5 →
    ∃ t u, exec (.csrrw a 0x140#12 a) s = .next t ∧ exec (.csrrw a 0x140#12 a) t = .next u ∧
      readReg t a = s.sscratch ∧ t.sscratch = readReg s a ∧
      (∀ n, readReg u n = readReg s n) ∧ CsrsSame s u ∧
      u.pc.toNat = (s.pc.toNat + 8) % 2 ^ s.cfg.sxlen.bits

/-! ### `sepc` -/

/-- 10_state.md R36: `sepc[0]` is always zero: every read, explicit or implicit, returns 0 in it, and no
instruction changes it. -/
def Obligations.SepcBit0IsAlwaysZero : Prop :=
  ∀ (i : Instr) (s t : State), Inv s → exec i s = .next t →
    t.sepc.getLsbD 0 = false ∧
    (∀ rd, i.csrField = some 0x141#12 → i.rdField = some rd → (readReg t rd).getLsbD 0 = false) ∧
    (i = .sret → t.pc.getLsbD 0 = false)

/-- 10_state.md R37: on implementations that support only IALIGN=32, `sepc[1:0]` are always zero. -/
def Obligations.SepcLowBitsAreZeroUnderOnly32 : Prop :=
  ∀ (i : Instr) (s t : State) (n : Nat), Inv s → s.cfg.ialignSupport = .only32 → n < 2 →
    exec i s = .next t →
    t.sepc.getLsbD n = false ∧
    (∀ rd, i.csrField = some 0x141#12 → i.rdField = some rd → (readReg t rd).getLsbD n = false) ∧
    (i = .sret → t.pc.getLsbD n = false)

/-- 10_state.md R38: where IALIGN may be 16 or 32, a read returns 0 in bit 1 while it is 32 and the stored
bit while it is 16. -/
def Obligations.SepcBit1IsMaskedWhileIalignIs32 : Prop :=
  ∀ (i : Instr) (rd : BitVec 5) (s t : State), Inv s → s.cfg.ialignSupport = .both →
    exec i s = .next t →
    (i.csrField = some 0x141#12 → i.rdField = some rd → rd ≠ 0#5 →
      (s.ialign = .i32 → (readReg t rd).getLsbD 1 = false) ∧
      (s.ialign = .i16 → (readReg t rd).getLsbD 1 = s.sepc.getLsbD 1)) ∧
    (i = .sret →
      (s.ialign = .i32 → t.pc.getLsbD 1 = false) ∧
      (s.ialign = .i16 → t.pc.getLsbD 1 = s.sepc.getLsbD 1))

/-- 10_state.md R39 and 41_sret.md R130: SRET obtains what an explicit read returns, bit 0 is 0 always, no
unmasked bit 1 reaches `pc` while IALIGN is 32, and `sepc_s` keeps its hidden bit. -/
def Obligations.SretReadsSepcMasked : Prop :=
  ∀ (s t : State), Inv s → exec .sret s = .next t →
    (∀ rd, rd ≠ 0#5 → ∃ u, exec (.csrrs rd 0x141#12 0#5) s = .next u ∧ t.pc = readReg u rd) ∧
    t.pc.getLsbD 0 = false ∧ (s.ialign = .i32 → t.pc.getLsbD 1 = false) ∧ t.sepc = s.sepc

/-- 10_state.md R40: though masked, `sepc[1]` remains writable: a write stores it whatever `ialign` is, an
instruction that does not write `sepc` keeps it, and reads see it once `ialign` is 16. -/
def Obligations.MaskedSepcBit1RemainsWritable : Prop :=
  ∀ (s : State), Inv s → s.cfg.ialignSupport = .both →
    (s.mode ≠ .U → ∀ rd rs1, ∃ t, exec (.csrrw rd 0x141#12 rs1) s = .next t ∧
      t.sepc.getLsbD 1 = (readReg s rs1).getLsbD 1) ∧
    (s.mode ≠ .U → ∀ rd uimm, ∃ t, exec (.csrrwi rd 0x141#12 uimm) s = .next t ∧
      t.sepc.getLsbD 1 = uimm.getLsbD 1) ∧
    (∀ i t, exec i s = .next t → ¬ (i.csrField = some 0x141#12 ∧ i.writesCsr = true) →
      t.sepc = s.sepc) ∧
    (s.mode ≠ .U → ∀ rd, rd ≠ 0#5 →
      ∃ u, exec (.csrrs rd 0x141#12 0#5) { s with ialign := .i16 } = .next u ∧
        (readReg u rd).getLsbD 1 = s.sepc.getLsbD 1)

/-- 10_state.md R42, the spec's own inference from R36 to R38: where IALIGN is always 16 only bit 0 is always
zero; bit 1 is stored as written and never masked. -/
def Obligations.SepcBit1IsOrdinaryUnderOnly16 : Prop :=
  ∀ (s : State), Inv s → s.cfg.ialignSupport = .only16 →
    (s.mode ≠ .U → ∀ rd rs1, ∃ t, exec (.csrrw rd 0x141#12 rs1) s = .next t ∧
      t.sepc.getLsbD 0 = false ∧ t.sepc.getLsbD 1 = (readReg s rs1).getLsbD 1) ∧
    (s.mode ≠ .U → ∀ rd, rd ≠ 0#5 →
      ∃ u, exec (.csrrs rd 0x141#12 0#5) s = .next u ∧ readReg u rd = s.sepc) ∧
    (∀ t, exec .sret s = .next t → t.pc = s.sepc)

/-- 10_state.md R43, the spec's own inference (log 20): the stored form after an explicit write of `v`: the
always-zero bits are dropped, the other bits of the legalised value stored, bits 1:0 of the value left alone
by the legalisation, and no value raises. -/
def Obligations.SepcWriteStoresTheOtherBits : Prop :=
  ∀ (s : State) (rd rs1 : BitVec 5), Inv s → s.mode ≠ .U →
    ∃ t, exec (.csrrw rd 0x141#12 rs1) s = .next t ∧ t.sepc.getLsbD 0 = false ∧
      (s.cfg.ialignSupport = .only32 → t.sepc.getLsbD 1 = false) ∧
      (s.cfg.ialignSupport ≠ .only32 → t.sepc.getLsbD 1 = (readReg s rs1).getLsbD 1) ∧
      (∀ n, 2 ≤ n → n < s.cfg.sxlen.bits →
        t.sepc.getLsbD n = (sepcLegalize s.cfg (readReg s rs1)).getLsbD n) ∧
      (s.cfg.sepcLegalize = .identity → ∀ n, 2 ≤ n → t.sepc.getLsbD n = (readReg s rs1).getLsbD n)

/-! ### Whole-machine rules -/

/-- 10_state.md R57 with 20_memory.md R62: every step keeps the launch invariant. -/
def Obligations.EveryStepKeepsTheLaunchInvariant : Prop :=
  ∀ s t : State, Inv s → step s = .next t → Inv t

/-- The reset state the model chose (log 3, log 4) meets the launch invariant (10_state.md R57, R171). -/
def Obligations.ResetMeetsTheLaunchInvariant : Prop :=
  Inv State.reset

/-- No step changes a launch parameter, PROGRAM or `ialign` (00_scope.md R6, 20_memory.md R69). -/
def Obligations.NoStepChangesTheLaunch : Prop :=
  ∀ s t : State, step s = .next t → LaunchSame s t

/-- The mode and `spp` are changed by SRET alone, and SRET never enters a mode above S
(10_state.md R49, 41_sret.md R132). -/
def Obligations.OnlySretChangesTheMode : Prop :=
  ∀ (i : Instr) (s t : State), exec i s = .next t →
    (i ≠ .sret → t.mode = s.mode ∧ t.spp = s.spp) ∧ (i = .sret → t.mode ≠ .M ∧ t.spp = .U)

/-- The frame of the six CSR instructions: at most `rd`, the CSR named, and `pc` change; the CSR changes only
in a writing form (40_csr_access.md R103 to R108). -/
def Obligations.CsrInstructionsChangeNothingElse : Prop :=
  ∀ (i : Instr) (rd : BitVec 5) (c : BitVec 12) (s t : State), i.rdField = some rd →
    i.csrField = some c → exec i s = .next t →
    CsrFrame rd s t ∧
    (i.writesCsr = false → CsrsSame s t) ∧
    (c ≠ 0x106#12 → t.scounteren = s.scounteren) ∧
    (c ≠ 0x140#12 → t.sscratch = s.sscratch) ∧
    (c ≠ 0x141#12 → t.sepc = s.sepc)

/-- `x[0]` reads as zero and ignores writes: an instruction whose `rd` is x0 changes no general register
(10_state.md R51). -/
def Obligations.ZeroRegisterDiscardsWrites : Prop :=
  ∀ (i : Instr) (s t : State), exec i s = .next t →
    readReg t 0#5 = 0#64 ∧
    (i.rdField = some 0#5 ∨ i.rdField = none → ∀ n, readReg t n = readReg s n)

/-- User code can neither change `scounteren`, `sscratch`, `sepc`, `spp` nor learn `sscratch`, `sepc`, `spp`:
from U-mode a step changes none of the four and stays in U-mode, and an instruction runs alike whatever the last
three hold (70_reset_and_hazards.md R175, 40_csr_access.md R114, 41_sret.md R133). The bits of `scounteren` it
does learn: a counter read in U-mode completes or raises by them (40_csr_access.md R109). -/
def Obligations.UserCodeIsIsolatedFromTheSupervisor : Prop :=
  (∀ s t : State, s.mode = .U → step s = .next t →
    t.mode = .U ∧ t.spp = s.spp ∧ CsrsSame s t ∧ LaunchSame s t) ∧
  (∀ (i : Instr) (s : State) (a b : Word) (p : Spp), s.mode = .U →
    exec i { s with sscratch := a, sepc := b, spp := p } =
      onNext (fun t => { t with sscratch := a, sepc := b, spp := p }) (exec i s))

/-- A write is seen by what follows (20_memory.md R71): a supervisor that writes `scounteren` and returns to
user code has set what the very next counter read there may do, and a write of `sepc` is what the very next
SRET reads. -/
def Obligations.CsrWriteGovernsWhatFollows : Prop :=
  ∀ (s : State) (rs1 : BitVec 5), Inv s → s.mode = .S → s.cfg.mTsr = false →
    (s.spp = .U → ∀ (rd : BitVec 5) (c : BitVec 12), CounterNumber s.cfg.sxlen c →
      s.cfg.mCounterGate.getLsbD (c.toNat % 32) = true →
      ∃ t u, exec (.csrrw 0#5 0x106#12 rs1) s = .next t ∧ exec .sret t = .next u ∧ u.mode = .U ∧
        (((readReg s rs1).setWidth 32 &&& ~~~ s.cfg.scounterenHz).getLsbD (c.toNat % 32) = true →
          ∃ v, exec (.csrrs rd c 0#5) u = .next v) ∧
        (((readReg s rs1).setWidth 32 &&& ~~~ s.cfg.scounterenHz).getLsbD (c.toNat % 32) = false →
          exec (.csrrs rd c 0#5) u = trap u)) ∧
    (s.cfg.sepcLegalize = .identity →
      ∃ t u, exec (.csrrw 0#5 0x141#12 rs1) s = .next t ∧ exec .sret t = .next u ∧
        u.pc.getLsbD 0 = false ∧ (s.ialign = .i32 → u.pc.getLsbD 1 = false) ∧
        (s.ialign = .i16 → u.pc.getLsbD 1 = (readReg s rs1).getLsbD 1) ∧
        ∀ n, 2 ≤ n → u.pc.getLsbD n = (readReg s rs1).getLsbD n)

end Statements
end

