-- ==== Sys2Proof/Laws/State.lean ====
section
/-! SUPPORT. One lemma per field per update of the state, so that no proof unfolds a record update. -/

namespace Sys2Proof.Laws

open Sys2Proof.Machine

variable (s : State)

/-! ### `setPc` -/

@[simp] theorem setPc_cfg (v : Word) : (setPc s v).cfg = s.cfg := rfl
@[simp] theorem setPc_program (v : Word) : (setPc s v).program = s.program := rfl
@[simp] theorem setPc_scounteren (v : Word) : (setPc s v).scounteren = s.scounteren := rfl
@[simp] theorem setPc_sscratch (v : Word) : (setPc s v).sscratch = s.sscratch := rfl
@[simp] theorem setPc_sepc (v : Word) : (setPc s v).sepc = s.sepc := rfl
@[simp] theorem setPc_ialign (v : Word) : (setPc s v).ialign = s.ialign := rfl
@[simp] theorem setPc_mode (v : Word) : (setPc s v).mode = s.mode := rfl
@[simp] theorem setPc_spp (v : Word) : (setPc s v).spp = s.spp := rfl
@[simp] theorem setPc_pc (v : Word) : (setPc s v).pc = fit s.cfg.sxlen v := rfl
@[simp] theorem setPc_x (v : Word) : (setPc s v).x = s.x := rfl
@[simp] theorem setPc_draws (v : Word) : (setPc s v).draws = s.draws := rfl

/-! ### `advancePc` -/

@[simp] theorem advancePc_cfg : (advancePc s).cfg = s.cfg := rfl
@[simp] theorem advancePc_program : (advancePc s).program = s.program := rfl
@[simp] theorem advancePc_scounteren : (advancePc s).scounteren = s.scounteren := rfl
@[simp] theorem advancePc_sscratch : (advancePc s).sscratch = s.sscratch := rfl
@[simp] theorem advancePc_sepc : (advancePc s).sepc = s.sepc := rfl
@[simp] theorem advancePc_ialign : (advancePc s).ialign = s.ialign := rfl
@[simp] theorem advancePc_mode : (advancePc s).mode = s.mode := rfl
@[simp] theorem advancePc_spp : (advancePc s).spp = s.spp := rfl
@[simp] theorem advancePc_pc : (advancePc s).pc = fit s.cfg.sxlen (s.pc + 4#64) := rfl
@[simp] theorem advancePc_x : (advancePc s).x = s.x := rfl
@[simp] theorem advancePc_draws : (advancePc s).draws = s.draws := rfl

/-! ### `setScounteren` -/

@[simp] theorem setScounteren_cfg (v : BitVec 32) : (setScounteren s v).cfg = s.cfg := rfl
@[simp] theorem setScounteren_program (v : BitVec 32) : (setScounteren s v).program = s.program := rfl
@[simp] theorem setScounteren_scounteren (v : BitVec 32) : (setScounteren s v).scounteren = v &&& ~~~ s.cfg.scounterenHz := rfl
@[simp] theorem setScounteren_sscratch (v : BitVec 32) : (setScounteren s v).sscratch = s.sscratch := rfl
@[simp] theorem setScounteren_sepc (v : BitVec 32) : (setScounteren s v).sepc = s.sepc := rfl
@[simp] theorem setScounteren_ialign (v : BitVec 32) : (setScounteren s v).ialign = s.ialign := rfl
@[simp] theorem setScounteren_mode (v : BitVec 32) : (setScounteren s v).mode = s.mode := rfl
@[simp] theorem setScounteren_spp (v : BitVec 32) : (setScounteren s v).spp = s.spp := rfl
@[simp] theorem setScounteren_pc (v : BitVec 32) : (setScounteren s v).pc = s.pc := rfl
@[simp] theorem setScounteren_x (v : BitVec 32) : (setScounteren s v).x = s.x := rfl
@[simp] theorem setScounteren_draws (v : BitVec 32) : (setScounteren s v).draws = s.draws := rfl

/-! ### `setSscratch` -/

@[simp] theorem setSscratch_cfg (v : Word) : (setSscratch s v).cfg = s.cfg := rfl
@[simp] theorem setSscratch_program (v : Word) : (setSscratch s v).program = s.program := rfl
@[simp] theorem setSscratch_scounteren (v : Word) : (setSscratch s v).scounteren = s.scounteren := rfl
@[simp] theorem setSscratch_sscratch (v : Word) : (setSscratch s v).sscratch = fit s.cfg.sxlen v := rfl
@[simp] theorem setSscratch_sepc (v : Word) : (setSscratch s v).sepc = s.sepc := rfl
@[simp] theorem setSscratch_ialign (v : Word) : (setSscratch s v).ialign = s.ialign := rfl
@[simp] theorem setSscratch_mode (v : Word) : (setSscratch s v).mode = s.mode := rfl
@[simp] theorem setSscratch_spp (v : Word) : (setSscratch s v).spp = s.spp := rfl
@[simp] theorem setSscratch_pc (v : Word) : (setSscratch s v).pc = s.pc := rfl
@[simp] theorem setSscratch_x (v : Word) : (setSscratch s v).x = s.x := rfl
@[simp] theorem setSscratch_draws (v : Word) : (setSscratch s v).draws = s.draws := rfl

/-! ### `setSepc` -/

@[simp] theorem setSepc_cfg (v : Word) : (setSepc s v).cfg = s.cfg := rfl
@[simp] theorem setSepc_program (v : Word) : (setSepc s v).program = s.program := rfl
@[simp] theorem setSepc_scounteren (v : Word) : (setSepc s v).scounteren = s.scounteren := rfl
@[simp] theorem setSepc_sscratch (v : Word) : (setSepc s v).sscratch = s.sscratch := rfl
@[simp] theorem setSepc_sepc (v : Word) : (setSepc s v).sepc = fit s.cfg.sxlen v := rfl
@[simp] theorem setSepc_ialign (v : Word) : (setSepc s v).ialign = s.ialign := rfl
@[simp] theorem setSepc_mode (v : Word) : (setSepc s v).mode = s.mode := rfl
@[simp] theorem setSepc_spp (v : Word) : (setSepc s v).spp = s.spp := rfl
@[simp] theorem setSepc_pc (v : Word) : (setSepc s v).pc = s.pc := rfl
@[simp] theorem setSepc_x (v : Word) : (setSepc s v).x = s.x := rfl
@[simp] theorem setSepc_draws (v : Word) : (setSepc s v).draws = s.draws := rfl

/-! ### `takeDraw` -/

@[simp] theorem takeDraw_cfg : (takeDraw s).cfg = s.cfg := rfl
@[simp] theorem takeDraw_program : (takeDraw s).program = s.program := rfl
@[simp] theorem takeDraw_scounteren : (takeDraw s).scounteren = s.scounteren := rfl
@[simp] theorem takeDraw_sscratch : (takeDraw s).sscratch = s.sscratch := rfl
@[simp] theorem takeDraw_sepc : (takeDraw s).sepc = s.sepc := rfl
@[simp] theorem takeDraw_ialign : (takeDraw s).ialign = s.ialign := rfl
@[simp] theorem takeDraw_mode : (takeDraw s).mode = s.mode := rfl
@[simp] theorem takeDraw_spp : (takeDraw s).spp = s.spp := rfl
@[simp] theorem takeDraw_pc : (takeDraw s).pc = s.pc := rfl
@[simp] theorem takeDraw_x : (takeDraw s).x = s.x := rfl
@[simp] theorem takeDraw_draws : (takeDraw s).draws = s.draws + 1 := rfl

/-! ### `setPrivilege` -/

@[simp] theorem setPrivilege_cfg (m : Mode) (p : Spp) : (setPrivilege s m p).cfg = s.cfg := rfl
@[simp] theorem setPrivilege_program (m : Mode) (p : Spp) : (setPrivilege s m p).program = s.program := rfl
@[simp] theorem setPrivilege_scounteren (m : Mode) (p : Spp) : (setPrivilege s m p).scounteren = s.scounteren := rfl
@[simp] theorem setPrivilege_sscratch (m : Mode) (p : Spp) : (setPrivilege s m p).sscratch = s.sscratch := rfl
@[simp] theorem setPrivilege_sepc (m : Mode) (p : Spp) : (setPrivilege s m p).sepc = s.sepc := rfl
@[simp] theorem setPrivilege_ialign (m : Mode) (p : Spp) : (setPrivilege s m p).ialign = s.ialign := rfl
@[simp] theorem setPrivilege_mode (m : Mode) (p : Spp) : (setPrivilege s m p).mode = m := rfl
@[simp] theorem setPrivilege_spp (m : Mode) (p : Spp) : (setPrivilege s m p).spp = p := rfl
@[simp] theorem setPrivilege_pc (m : Mode) (p : Spp) : (setPrivilege s m p).pc = s.pc := rfl
@[simp] theorem setPrivilege_x (m : Mode) (p : Spp) : (setPrivilege s m p).x = s.x := rfl
@[simp] theorem setPrivilege_draws (m : Mode) (p : Spp) : (setPrivilege s m p).draws = s.draws := rfl

/-! ### `returnFromTrap` -/

@[simp] theorem returnFromTrap_cfg : (returnFromTrap s).cfg = s.cfg := rfl
@[simp] theorem returnFromTrap_program : (returnFromTrap s).program = s.program := rfl
@[simp] theorem returnFromTrap_scounteren : (returnFromTrap s).scounteren = s.scounteren := rfl
@[simp] theorem returnFromTrap_sscratch : (returnFromTrap s).sscratch = s.sscratch := rfl
@[simp] theorem returnFromTrap_sepc : (returnFromTrap s).sepc = s.sepc := rfl
@[simp] theorem returnFromTrap_ialign : (returnFromTrap s).ialign = s.ialign := rfl
@[simp] theorem returnFromTrap_mode : (returnFromTrap s).mode = sppMode s.spp := rfl
@[simp] theorem returnFromTrap_spp : (returnFromTrap s).spp = .U := rfl
@[simp] theorem returnFromTrap_pc : (returnFromTrap s).pc = fit s.cfg.sxlen (readSepc s) := rfl
@[simp] theorem returnFromTrap_x : (returnFromTrap s).x = s.x := rfl
@[simp] theorem returnFromTrap_draws : (returnFromTrap s).draws = s.draws := rfl

/-! ### `writeSepc` -/

@[simp] theorem writeSepc_cfg (v : Word) : (writeSepc s v).cfg = s.cfg := rfl
@[simp] theorem writeSepc_program (v : Word) : (writeSepc s v).program = s.program := rfl
@[simp] theorem writeSepc_scounteren (v : Word) : (writeSepc s v).scounteren = s.scounteren := rfl
@[simp] theorem writeSepc_sscratch (v : Word) : (writeSepc s v).sscratch = s.sscratch := rfl
@[simp] theorem writeSepc_ialign (v : Word) : (writeSepc s v).ialign = s.ialign := rfl
@[simp] theorem writeSepc_mode (v : Word) : (writeSepc s v).mode = s.mode := rfl
@[simp] theorem writeSepc_spp (v : Word) : (writeSepc s v).spp = s.spp := rfl
@[simp] theorem writeSepc_pc (v : Word) : (writeSepc s v).pc = s.pc := rfl
@[simp] theorem writeSepc_x (v : Word) : (writeSepc s v).x = s.x := rfl
@[simp] theorem writeSepc_draws (v : Word) : (writeSepc s v).draws = s.draws := rfl

/-! ### `placeWord` -/

@[simp] theorem placeWord_cfg (w : BitVec 32) : (placeWord s w).cfg = s.cfg := rfl
@[simp] theorem placeWord_program (w : BitVec 32) : (placeWord s w).program = programPut s.program (s.pc &&& ~~~ 3#64).toNat w := rfl
@[simp] theorem placeWord_scounteren (w : BitVec 32) : (placeWord s w).scounteren = s.scounteren := rfl
@[simp] theorem placeWord_sscratch (w : BitVec 32) : (placeWord s w).sscratch = s.sscratch := rfl
@[simp] theorem placeWord_sepc (w : BitVec 32) : (placeWord s w).sepc = s.sepc := rfl
@[simp] theorem placeWord_ialign (w : BitVec 32) : (placeWord s w).ialign = s.ialign := rfl
@[simp] theorem placeWord_mode (w : BitVec 32) : (placeWord s w).mode = s.mode := rfl
@[simp] theorem placeWord_spp (w : BitVec 32) : (placeWord s w).spp = s.spp := rfl
@[simp] theorem placeWord_pc (w : BitVec 32) : (placeWord s w).pc = s.pc &&& ~~~ 3#64 := rfl
@[simp] theorem placeWord_x (w : BitVec 32) : (placeWord s w).x = s.x := rfl
@[simp] theorem placeWord_draws (w : BitVec 32) : (placeWord s w).draws = s.draws := rfl

/-! ### `writeReg` -/

@[simp] theorem writeReg_cfg (n : BitVec 5) (v : Word) : (writeReg s n v).cfg = s.cfg := by
  unfold writeReg; split <;> rfl
@[simp] theorem writeReg_program (n : BitVec 5) (v : Word) : (writeReg s n v).program = s.program := by
  unfold writeReg; split <;> rfl
@[simp] theorem writeReg_scounteren (n : BitVec 5) (v : Word) : (writeReg s n v).scounteren = s.scounteren := by
  unfold writeReg; split <;> rfl
@[simp] theorem writeReg_sscratch (n : BitVec 5) (v : Word) : (writeReg s n v).sscratch = s.sscratch := by
  unfold writeReg; split <;> rfl
@[simp] theorem writeReg_sepc (n : BitVec 5) (v : Word) : (writeReg s n v).sepc = s.sepc := by
  unfold writeReg; split <;> rfl
@[simp] theorem writeReg_ialign (n : BitVec 5) (v : Word) : (writeReg s n v).ialign = s.ialign := by
  unfold writeReg; split <;> rfl
@[simp] theorem writeReg_mode (n : BitVec 5) (v : Word) : (writeReg s n v).mode = s.mode := by
  unfold writeReg; split <;> rfl
@[simp] theorem writeReg_spp (n : BitVec 5) (v : Word) : (writeReg s n v).spp = s.spp := by
  unfold writeReg; split <;> rfl
@[simp] theorem writeReg_pc (n : BitVec 5) (v : Word) : (writeReg s n v).pc = s.pc := by
  unfold writeReg; split <;> rfl
@[simp] theorem writeReg_draws (n : BitVec 5) (v : Word) : (writeReg s n v).draws = s.draws := by
  unfold writeReg; split <;> rfl

end Sys2Proof.Laws
end

