-- ==== Sys2Proof/Laws/Word.lean ====
section
/-! SUPPORT. XLEN-bit values and single bits of a word. -/

namespace Sys2Proof.Laws

open Sys2Proof.Machine

/-- `fit` keeps exactly the bits below XLEN. -/
theorem getLsbD_fit (x : Xlen) (v : Word) (i : Nat) :
    (fit x v).getLsbD i = (decide (i < x.bits) && v.getLsbD i) := by
  cases x
  · simp only [fit, Xlen.bits, BitVec.getLsbD_setWidth]
    by_cases h : i < 32
    · simp [h, show i < 64 by omega]
    · simp [h]
  · simp only [fit, Xlen.bits]
    by_cases h : i < 64
    · simp [h]
    · simp [h, BitVec.getLsbD_of_ge v i (by omega)]

/-- `fit` is reduction modulo 2^XLEN. -/
theorem toNat_fit (x : Xlen) (v : Word) : (fit x v).toNat = v.toNat % 2 ^ x.bits := by
  cases x
  · simp only [fit, Xlen.bits, BitVec.toNat_setWidth]
    omega
  · simp only [fit, Xlen.bits]
    exact (Nat.mod_eq_of_lt v.isLt).symm

@[simp] theorem fit_fit (x : Xlen) (v : Word) : fit x (fit x v) = fit x v := by
  apply BitVec.eq_of_toNat_eq
  simp only [toNat_fit, Nat.mod_mod]

@[simp] theorem fit_zero (x : Xlen) : fit x 0#64 = 0#64 := by cases x <;> rfl

/-- An XLEN-bit value is a number below 2^XLEN. -/
theorem fits_iff (x : Xlen) (v : Word) : Fits x v ↔ v.toNat < 2 ^ x.bits := by
  constructor
  · intro h
    rw [← h, toNat_fit]
    exact Nat.mod_lt _ (Nat.two_pow_pos _)
  · intro h
    apply BitVec.eq_of_toNat_eq
    rw [toNat_fit, Nat.mod_eq_of_lt h]

/-- An XLEN-bit value has no bit at or above XLEN. -/
theorem fits_high {x : Xlen} {v : Word} (h : Fits x v) {i : Nat} (hi : x.bits ≤ i) :
    v.getLsbD i = false := by
  rw [← h, getLsbD_fit]
  simp [Nat.not_lt.mpr hi]

theorem fit_and (x : Xlen) (v w : Word) : fit x (v &&& w) = fit x v &&& fit x w := by
  apply BitVec.eq_of_getLsbD_eq
  intro i _
  simp only [getLsbD_fit, BitVec.getLsbD_and]
  cases decide (i < x.bits) <;> simp

theorem fit_or (x : Xlen) (v w : Word) : fit x (v ||| w) = fit x v ||| fit x w := by
  apply BitVec.eq_of_getLsbD_eq
  intro i _
  simp only [getLsbD_fit, BitVec.getLsbD_or]
  cases decide (i < x.bits) <;> simp

/-- Clearing bits keeps a value XLEN bits wide. -/
theorem fits_and {x : Xlen} {v : Word} (h : Fits x v) (w : Word) : Fits x (v &&& w) := by
  apply BitVec.eq_of_getLsbD_eq
  intro i _
  rw [getLsbD_fit, BitVec.getLsbD_and]
  by_cases hi : i < x.bits
  · simp [hi]
  · simp [hi, fits_high h (Nat.not_lt.mp hi)]

theorem fits_or {x : Xlen} {v w : Word} (hv : Fits x v) (hw : Fits x w) : Fits x (v ||| w) := by
  show fit x (v ||| w) = v ||| w
  rw [fit_or, hv, hw]

/-- A 32-bit register zero-extended is an XLEN-bit value. -/
theorem fits_setWidth32 (x : Xlen) (v : BitVec 32) : Fits x (v.setWidth 64) := by
  rw [fits_iff]
  have := v.isLt
  cases x <;> simp only [Xlen.bits, BitVec.toNat_setWidth] <;> omega

/-- The immediate operand is an XLEN-bit value. -/
theorem fits_zextUimm (x : Xlen) (u : BitVec 5) : Fits x (zextUimm u) := by
  rw [fits_iff]
  have := u.isLt
  cases x <;> simp only [zextUimm, Xlen.bits, BitVec.toNat_setWidth] <;> omega

/-- Writing bit n of a word. -/
theorem getLsbD_setBit (v : Word) (n : Nat) (b : Bool) (i : Nat) (hn : n < 64) :
    (setBit v n b).getLsbD i = if i = n then b else v.getLsbD i := by
  unfold setBit
  by_cases hi : i < 64
  · cases b <;> by_cases h : i = n
    · subst h; simp [hi]
    · simp [hi, h]
    · subst h; simp [hi]
    · simp [h, Ne.symm h]
  · have hne : i ≠ n := by omega
    rw [BitVec.getLsbD_of_ge _ i (by omega), BitVec.getLsbD_of_ge v i (by omega)]
    simp [hne]

/-- Writing a bit below XLEN keeps a value XLEN bits wide. -/
theorem fits_setBit {x : Xlen} {v : Word} (h : Fits x v) (n : Nat) (b : Bool) (hn : n < x.bits) :
    Fits x (setBit v n b) := by
  have hx : x.bits ≤ 64 := by cases x <;> simp [Xlen.bits]
  apply BitVec.eq_of_getLsbD_eq
  intro i _
  rw [getLsbD_fit, getLsbD_setBit v n b i (by omega)]
  by_cases hi : i < x.bits
  · simp [hi]
  · have : i ≠ n := by omega
    simp [hi, this, fits_high h (Nat.not_lt.mp hi)]

theorem bits_pos_one (x : Xlen) : 1 < x.bits := by cases x <;> simp [Xlen.bits]

/-- A word is even exactly when its bit 0 is clear. -/
theorem mod_two_eq (v : Word) : v.toNat % 2 = (v.getLsbD 0).toNat := by
  simp only [BitVec.getLsbD, Nat.testBit_zero]
  rcases Nat.mod_two_eq_zero_or_one v.toNat with h | h <;> simp [h]

/-- The low two bits of a word as a number. -/
theorem mod_four_eq (v : Word) : v.toNat % 4 = (v.getLsbD 0).toNat + 2 * (v.getLsbD 1).toNat := by
  have h1 : (v.getLsbD 1).toNat = v.toNat / 2 % 2 := by
    simp only [BitVec.getLsbD, Nat.testBit_succ, Nat.testBit_zero]
    rcases Nat.mod_two_eq_zero_or_one (v.toNat / 2) with h | h <;> simp [h]
  rw [h1, ← mod_two_eq]
  omega

end Sys2Proof.Laws
end

