-- ==== Sys2Proof/Laws/Regs.lean ====
section
/-! SUPPORT. Reading general registers after each update of the state (10_state.md R51). -/

namespace Sys2Proof.Laws

open Sys2Proof.Machine

variable (s : State)

/-- `x[0]` reads as zero. -/
@[simp] theorem readReg_zero : readReg s 0#5 = 0#64 := rfl

/-- `x[0]` ignores writes. -/
@[simp] theorem writeReg_zero (v : Word) : writeReg s 0#5 v = s := rfl

/-- A general register read depends on the register file alone. -/
theorem readReg_congr {s t : State} (h : t.x = s.x) (n : BitVec 5) : readReg t n = readReg s n := by
  unfold readReg
  simp only [h]

/-- A write is read back in its own register, as an XLEN-bit value. -/
theorem readReg_writeReg_same {n : BitVec 5} (hn : n ≠ 0#5) (v : Word) :
    readReg (writeReg s n v) n = fit s.cfg.sxlen v := by
  unfold readReg writeReg
  simp [hn]

/-- A write leaves every other register alone. -/
theorem readReg_writeReg_ne {n m : BitVec 5} (h : m ≠ n) (v : Word) :
    readReg (writeReg s n v) m = readReg s m := by
  by_cases hn : n = 0#5
  · subst hn; rfl
  · by_cases hm : m = 0#5
    · subst hm; rfl
    · have hn' : n.toNat ≠ 0 := fun e => hn (BitVec.eq_of_toNat_eq e)
      have hm' : m.toNat ≠ 0 := fun e => hm (BitVec.eq_of_toNat_eq e)
      have hne : n.toNat ≠ m.toNat := fun e => h (BitVec.eq_of_toNat_eq e.symm)
      unfold readReg writeReg
      simp only [hn, hm, dite_false]
      exact Vector.getElem_set_ne _ _ (by omega)

/-- Every register after a write. -/
theorem readReg_writeReg (n m : BitVec 5) (v : Word) :
    readReg (writeReg s n v) m = if m = n ∧ n ≠ 0#5 then fit s.cfg.sxlen v else readReg s m := by
  by_cases h : m = n
  · subst h
    by_cases hm : m = 0#5
    · subst hm; rfl
    · rw [readReg_writeReg_same s hm, if_pos ⟨rfl, hm⟩]
  · rw [readReg_writeReg_ne s h, if_neg (fun e => h e.1)]

@[simp] theorem readReg_setPc (v : Word) (n : BitVec 5) : readReg (setPc s v) n = readReg s n := rfl
@[simp] theorem readReg_advancePc (n : BitVec 5) : readReg (advancePc s) n = readReg s n := rfl
@[simp] theorem readReg_setScounteren (v : BitVec 32) (n : BitVec 5) :
    readReg (setScounteren s v) n = readReg s n := rfl
@[simp] theorem readReg_setSscratch (v : Word) (n : BitVec 5) :
    readReg (setSscratch s v) n = readReg s n := rfl
@[simp] theorem readReg_setSepc (v : Word) (n : BitVec 5) : readReg (setSepc s v) n = readReg s n := rfl
@[simp] theorem readReg_takeDraw (n : BitVec 5) : readReg (takeDraw s) n = readReg s n := rfl
@[simp] theorem readReg_setPrivilege (m : Mode) (p : Spp) (n : BitVec 5) :
    readReg (setPrivilege s m p) n = readReg s n := rfl
@[simp] theorem readReg_returnFromTrap (n : BitVec 5) :
    readReg (returnFromTrap s) n = readReg s n := rfl
@[simp] theorem readReg_writeSepc (v : Word) (n : BitVec 5) :
    readReg (writeSepc s v) n = readReg s n := rfl
@[simp] theorem readReg_placeWord (w : BitVec 32) (n : BitVec 5) :
    readReg (placeWord s w) n = readReg s n := rfl

end Sys2Proof.Laws
end

