-- ==== Sys2Proof/Laws/Access.lean ====
section
/-! SUPPORT. What each shared operation over CSRs can do, once: the access check, read, write, set and clear,
`sepc`, and the outcomes of `csrAccess`. -/

namespace Sys2Proof.Laws

open Sys2Proof.Machine

variable (s : State)

/-! ### `sepc` -/

/-- `sepc[1]` reads as zero while it is masked, and every other bit as it is stored (10_state.md R41). -/
theorem getLsbD_readSepc (i : Nat) :
    (readSepc s).getLsbD i = (s.sepc.getLsbD i && !(sepcMasked s && i == 1)) := by
  unfold readSepc
  split
  · rename_i h
    rw [getLsbD_setBit _ _ _ _ (by omega), h]
    by_cases hi : i = 1 <;> simp [hi]
  · rename_i h
    simp [h]

theorem fits_readSepc (h : Fits s.cfg.sxlen s.sepc) : Fits s.cfg.sxlen (readSepc s) := by
  unfold readSepc
  split
  · exact fits_setBit h 1 false (bits_pos_one _)
  · exact h

/-- `sepc_legalize` leaves bits 1:0 as they are (00_scope.md R9). -/
theorem getLsbD_sepcLegalize_low (c : Config) (v : Word) (i : Nat) (hi : i < 2) :
    (sepcLegalize c v).getLsbD i = v.getLsbD i := by
  unfold sepcLegalize
  split
  · rfl
  · rename_i k _
    have : i = 0 ∨ i = 1 := by omega
    rcases this with rfl | rfl <;> simp

/-- Every bit of `sepc_s` after `write_sepc(v)` (10_state.md R43). -/
theorem getLsbD_writeSepc (v : Word) (i : Nat) :
    (writeSepc s v).sepc.getLsbD i =
      (decide (i < s.cfg.sxlen.bits) && (sepcLegalize s.cfg v).getLsbD i &&
        !(i == 0 || (i == 1 && s.cfg.ialignSupport == .only32))) := by
  have hs : (writeSepc s v).sepc = fit s.cfg.sxlen
      (if s.cfg.ialignSupport = .only32 then setBit (setBit (sepcLegalize s.cfg v) 0 false) 1 false
        else setBit (sepcLegalize s.cfg v) 0 false) := rfl
  rw [hs, getLsbD_fit]
  split
  · rename_i h
    rw [getLsbD_setBit _ _ _ _ (by omega), getLsbD_setBit _ _ _ _ (by omega), h]
    by_cases h0 : i = 0 <;> by_cases h1 : i = 1 <;> simp [h0, h1]
  · rename_i h
    rw [getLsbD_setBit _ _ _ _ (by omega)]
    by_cases h0 : i = 0 <;> simp [h0, h]

theorem writeSepc_bit0 (v : Word) : (writeSepc s v).sepc.getLsbD 0 = false := by
  rw [getLsbD_writeSepc]; simp

theorem writeSepc_bit1_only32 (h : s.cfg.ialignSupport = .only32) (v : Word) :
    (writeSepc s v).sepc.getLsbD 1 = false := by
  rw [getLsbD_writeSepc]; simp [h]

/-- Outside `only32` bit 1 is stored as written, whatever `ialign` is (10_state.md R40, R42). -/
theorem writeSepc_bit1 (h : s.cfg.ialignSupport ≠ .only32) (v : Word) :
    (writeSepc s v).sepc.getLsbD 1 = v.getLsbD 1 := by
  rw [getLsbD_writeSepc, getLsbD_sepcLegalize_low _ _ _ (by omega)]
  simp [h, bits_pos_one]

theorem fits_writeSepc (v : Word) : Fits s.cfg.sxlen (writeSepc s v).sepc := fit_fit _ _

/-! ### CSR read, write, set and clear -/

/-- A CSR read changes nothing but, for a counter, the count of free values (40_csr_access.md R101). -/
theorem csrRead_state (r : Csr) :
    (csrRead s r).2 = if (gateBit r).isSome then takeDraw s else s := by
  cases r <;> rfl

/-- What `CSR_write` leaves alone (40_csr_access.md R102). -/
theorem csrWrite_frame (r : Csr) (v : Word) :
    (csrWrite s r v).cfg = s.cfg ∧ (csrWrite s r v).program = s.program ∧
    (csrWrite s r v).ialign = s.ialign ∧ (csrWrite s r v).mode = s.mode ∧
    (csrWrite s r v).spp = s.spp ∧ (csrWrite s r v).pc = s.pc ∧ (csrWrite s r v).x = s.x ∧
    (csrWrite s r v).draws = s.draws ∧
    (r ≠ .scounteren → (csrWrite s r v).scounteren = s.scounteren) ∧
    (r ≠ .sscratch → (csrWrite s r v).sscratch = s.sscratch) ∧
    (r ≠ .sepc → (csrWrite s r v).sepc = s.sepc) := by
  cases r <;> simp [csrWrite]

/-- `CSR_set` and `CSR_clear` on `sepc`, in the open case and in every other (40_csr_access.md R113). -/
theorem csrMask_sepc (op : MaskOp) (m : Word) :
    csrMask op s .sepc m =
      if hiddenBitOpen s m = true then
        takeDraw (setSepc (writeSepc s (maskApply op (readSepc s) m))
          (setBit (writeSepc s (maskApply op (readSepc s) m)).sepc 1
            (Config.hiddenBitDraw op m s.draws)))
      else writeSepc s (maskApply op (readSepc s) m) := rfl

/-- What `CSR_set` and `CSR_clear` leave alone (40_csr_access.md R113). -/
theorem csrMask_frame (op : MaskOp) (r : Csr) (m : Word) :
    (csrMask op s r m).cfg = s.cfg ∧ (csrMask op s r m).program = s.program ∧
    (csrMask op s r m).ialign = s.ialign ∧ (csrMask op s r m).mode = s.mode ∧
    (csrMask op s r m).spp = s.spp ∧ (csrMask op s r m).pc = s.pc ∧ (csrMask op s r m).x = s.x ∧
    (r ≠ .scounteren → (csrMask op s r m).scounteren = s.scounteren) ∧
    (r ≠ .sscratch → (csrMask op s r m).sscratch = s.sscratch) ∧
    (r ≠ .sepc → (csrMask op s r m).sepc = s.sepc) := by
  cases r <;> simp [csrMask, csrWrite]
  split <;> simp

/-! ### The outcomes of an access -/

/-- An access answers a next state exactly when its number is listed and the check lets it through. -/
theorem csrAccess_next_iff (c : BitVec 12) (w : Bool) (k : Csr → State) (t : State) :
    csrAccess s c w k = .next t ↔
      ∃ r, csrOfNumber s.cfg.sxlen c = some r ∧ csrDenied s c r w = false ∧ k r = t := by
  unfold csrAccess
  cases h : csrOfNumber s.cfg.sxlen c with
  | none => simp
  | some r => cases hd : csrDenied s c r w <;> simp [hd, raiseIllegal]

/-- An access is an exception exactly when its number is listed and the check raises; it carries the `pc`
of the instruction. -/
theorem csrAccess_fault_iff (c : BitVec 12) (w : Bool) (k : Csr → State) (f : Fault) :
    csrAccess s c w k = .fault f ↔
      f = .trapped .illegalInstruction s.pc ∧
        ∃ r, csrOfNumber s.cfg.sxlen c = some r ∧ csrDenied s c r w = true := by
  unfold csrAccess
  cases h : csrOfNumber s.cfg.sxlen c with
  | none => simp
  | some r =>
    cases hd : csrDenied s c r w
    · simp [hd]
    · simp only [raiseIllegal, hd, ite_true, Host.Outcome.fault.injEq, Option.some.injEq,
        exists_eq_left', and_true]
      exact eq_comm

/-- An access is refused exactly when its number is not listed. -/
theorem csrAccess_refused_iff (c : BitVec 12) (w : Bool) (k : Csr → State) (q : Refusal) :
    csrAccess s c w k = .refused q ↔ csrOfNumber s.cfg.sxlen c = none ∧ q = .csr c := by
  unfold csrAccess
  cases h : csrOfNumber s.cfg.sxlen c with
  | none =>
    simp only [Host.Outcome.refused.injEq, true_and]
    exact eq_comm
  | some r => cases hd : csrDenied s c r w <;> simp [hd, raiseIllegal]

/-! ### The effects of the six CSR instructions -/

/-- What CSRRW and CSRRWI leave alone, and their `pc`. -/
theorem swapCsr_frame (rd : BitVec 5) (v : Word) (r : Csr) :
    (swapCsr s rd v r).cfg = s.cfg ∧ (swapCsr s rd v r).program = s.program ∧
    (swapCsr s rd v r).ialign = s.ialign ∧ (swapCsr s rd v r).mode = s.mode ∧
    (swapCsr s rd v r).spp = s.spp ∧ (swapCsr s rd v r).pc = fit s.cfg.sxlen (s.pc + 4#64) ∧
    (∀ n, n ≠ rd → readReg (swapCsr s rd v r) n = readReg s n) ∧
    (r ≠ .scounteren → (swapCsr s rd v r).scounteren = s.scounteren) ∧
    (r ≠ .sscratch → (swapCsr s rd v r).sscratch = s.sscratch) ∧
    (r ≠ .sepc → (swapCsr s rd v r).sepc = s.sepc) := by
  unfold swapCsr
  split
  · cases r <;> simp [csrWrite]
  · cases r <;> simp +contextual [csrWrite, csrRead, readReg_writeReg]

/-- What CSRRS, CSRRC, CSRRSI and CSRRCI leave alone, and their `pc`. -/
theorem maskCsr_frame (op : MaskOp) (rd : BitVec 5) (w : Bool) (m : Word) (r : Csr) :
    (maskCsr op s rd w m r).cfg = s.cfg ∧ (maskCsr op s rd w m r).program = s.program ∧
    (maskCsr op s rd w m r).ialign = s.ialign ∧ (maskCsr op s rd w m r).mode = s.mode ∧
    (maskCsr op s rd w m r).spp = s.spp ∧
    (maskCsr op s rd w m r).pc = fit s.cfg.sxlen (s.pc + 4#64) ∧
    (∀ n, n ≠ rd → readReg (maskCsr op s rd w m r) n = readReg s n) ∧
    (r ≠ .scounteren ∨ w = false → (maskCsr op s rd w m r).scounteren = s.scounteren) ∧
    (r ≠ .sscratch ∨ w = false → (maskCsr op s rd w m r).sscratch = s.sscratch) ∧
    (r ≠ .sepc ∨ w = false → (maskCsr op s rd w m r).sepc = s.sepc) := by
  unfold maskCsr
  cases w
  · cases r <;> simp +contextual [csrRead, readReg_writeReg]
  · cases r
    case sepc =>
      by_cases h : hiddenBitOpen s m = true <;>
        simp +contextual [csrRead, csrMask, h, readReg_writeReg]
    all_goals simp +contextual [csrRead, csrMask, csrWrite, readReg_writeReg]

end Sys2Proof.Laws
end

