-- ==== Sys2Proof/Laws/Decode.lean ====
section
/-! SUPPORT. The fields of a SYSTEM word, the CSR numbers and their names. -/

namespace Sys2Proof.Laws

/-! ### Fields of a word (30_encoding.md R81, R82) -/

variable (c : BitVec 12) (a d : BitVec 5) (f : BitVec 3)

theorem encodeSystem_toNat :
    (encodeSystem c a f d).toNat =
      c.toNat * 2 ^ 20 + a.toNat * 2 ^ 15 + f.toNat * 2 ^ 12 + d.toNat * 2 ^ 7 + 115 := by
  have hc := c.isLt
  have ha := a.isLt
  have hf := f.isLt
  have hd := d.isLt
  have h7 : (0b1110011#7 : BitVec 7).toNat = 115 := rfl
  unfold encodeSystem
  simp only [BitVec.toNat_append, h7, Nat.shiftLeft_eq]
  rw [← Nat.shiftLeft_eq c.toNat 5, ← Nat.shiftLeft_add_eq_or_of_lt ha, Nat.shiftLeft_eq]
  rw [← Nat.shiftLeft_eq _ 3, ← Nat.shiftLeft_add_eq_or_of_lt hf, Nat.shiftLeft_eq]
  rw [← Nat.shiftLeft_eq _ 5, ← Nat.shiftLeft_add_eq_or_of_lt hd, Nat.shiftLeft_eq]
  rw [← Nat.shiftLeft_eq _ 7, ← Nat.shiftLeft_add_eq_or_of_lt (by omega : (115 : Nat) < 2 ^ 7),
    Nat.shiftLeft_eq]
  omega

/-- A field of a word as a number. -/
theorem field_toNat (w : BitVec 32) (lo n : Nat) :
    (w.extractLsb' lo n).toNat = w.toNat / 2 ^ lo % 2 ^ n := by
  rw [BitVec.extractLsb'_toNat, Nat.shiftRight_eq_div_pow]

theorem encodeSystem_low : (encodeSystem c a f d).extractLsb' 0 2 = 0b11#2 := by
  apply BitVec.eq_of_toNat_eq
  rw [field_toNat, encodeSystem_toNat]
  show _ = 3
  omega

theorem encodeSystem_opcode : (encodeSystem c a f d).extractLsb' 0 7 = 0b1110011#7 := by
  apply BitVec.eq_of_toNat_eq
  rw [field_toNat, encodeSystem_toNat]
  show _ = 115
  omega

theorem encodeSystem_rd : (encodeSystem c a f d).extractLsb' 7 5 = d := by
  apply BitVec.eq_of_toNat_eq
  rw [field_toNat, encodeSystem_toNat]
  have := d.isLt
  omega

theorem encodeSystem_funct3 : (encodeSystem c a f d).extractLsb' 12 3 = f := by
  apply BitVec.eq_of_toNat_eq
  rw [field_toNat, encodeSystem_toNat]
  have := d.isLt
  have := f.isLt
  omega

theorem encodeSystem_rs1 : (encodeSystem c a f d).extractLsb' 15 5 = a := by
  apply BitVec.eq_of_toNat_eq
  rw [field_toNat, encodeSystem_toNat]
  have := d.isLt
  have := f.isLt
  have := a.isLt
  omega

theorem encodeSystem_csr : (encodeSystem c a f d).extractLsb' 20 12 = c := by
  apply BitVec.eq_of_toNat_eq
  rw [field_toNat, encodeSystem_toNat]
  have := d.isLt
  have := f.isLt
  have := a.isLt
  have := c.isLt
  omega

/-- A word with opcode SYSTEM is the layout of its own fields. -/
theorem encodeSystem_fields (w : BitVec 32) (h : w.extractLsb' 0 7 = 0b1110011#7) :
    encodeSystem (w.extractLsb' 20 12) (w.extractLsb' 15 5) (w.extractLsb' 12 3) (w.extractLsb' 7 5) = w := by
  apply BitVec.eq_of_toNat_eq
  have h7 : w.toNat / 2 ^ 0 % 2 ^ 7 = 115 := by
    rw [← field_toNat, h]; rfl
  rw [encodeSystem_toNat, field_toNat, field_toNat, field_toNat, field_toNat]
  have := w.isLt
  omega

/-! ### CSR numbers (30_encoding.md R84, R85) -/

/-- Each CSR is found under its own number, the upper halves only when XLEN is 32. -/
theorem csrOfNumber_number (x : Xlen) (r : Csr) (h : ∀ n, r = .counterHigh n → x = .x32) :
    csrOfNumber x (csrNumber r) = some r := by
  cases r with
  | counter n => revert n; cases x <;> decide
  | counterHigh n =>
    rw [h n rfl]
    clear h
    revert n; decide
  | _ => rfl

/-- A listed number is the number of the CSR it names. -/
theorem csrNumber_of_csrOfNumber {x : Xlen} {c : BitVec 12} {r : Csr} (h : csrOfNumber x c = some r) :
    csrNumber r = c := by
  have key : ∀ (k : BitVec 7), c.extractLsb' 5 7 = k → k ++ c.extractLsb' 0 5 = c := by
    intro k hk
    subst hk
    apply BitVec.eq_of_toNat_eq
    have := c.isLt
    have h5 := (c.extractLsb' 0 5).isLt
    rw [BitVec.toNat_append, ← Nat.shiftLeft_add_eq_or_of_lt h5, Nat.shiftLeft_eq,
      BitVec.extractLsb'_toNat, BitVec.extractLsb'_toNat, Nat.shiftRight_eq_div_pow,
      Nat.shiftRight_eq_div_pow]
    omega
  unfold csrOfNumber at h
  split at h
  · rename_i e; cases h; exact e.symm
  split at h
  · rename_i e; cases h; exact e.symm
  split at h
  · rename_i e; cases h; exact e.symm
  split at h
  · rename_i e; cases h; exact key _ e
  split at h
  · rename_i e; cases h; exact key _ e.1
  · cases h

/-- The upper seven bits of a CSR number as a range of numbers. -/
theorem csrHigh_iff (c : BitVec 12) (k : BitVec 7) :
    c.extractLsb' 5 7 = k ↔ 32 * k.toNat ≤ c.toNat ∧ c.toNat ≤ 32 * k.toNat + 31 := by
  have := c.isLt
  have hk := k.isLt
  constructor
  · intro h
    have h' : c.toNat / 32 % 128 = k.toNat := by
      rw [← h, BitVec.extractLsb'_toNat, Nat.shiftRight_eq_div_pow]
    omega
  · intro h
    apply BitVec.eq_of_toNat_eq
    rw [BitVec.extractLsb'_toNat, Nat.shiftRight_eq_div_pow]
    omega

/-- The number that a low half of a counter has (30_encoding.md R84). -/
theorem csrOfNumber_low (x : Xlen) (c : BitVec 12) (h : 0xC00 ≤ c.toNat ∧ c.toNat ≤ 0xC1F) :
    csrOfNumber x c = some (.counter (c.extractLsb' 0 5)) := by
  have e := (csrHigh_iff c 0b1100000#7).mpr h
  have n1 : c ≠ 0x106#12 := by rintro rfl; exact absurd h (by decide)
  have n2 : c ≠ 0x140#12 := by rintro rfl; exact absurd h (by decide)
  have n3 : c ≠ 0x141#12 := by rintro rfl; exact absurd h (by decide)
  simp [csrOfNumber, n1, n2, n3, e]

/-- The number that an upper half of a counter has when XLEN is 32 (30_encoding.md R84). -/
theorem csrOfNumber_high (c : BitVec 12) (h : 0xC80 ≤ c.toNat ∧ c.toNat ≤ 0xC9F) :
    csrOfNumber .x32 c = some (.counterHigh (c.extractLsb' 0 5)) := by
  have e := (csrHigh_iff c 0b1100100#7).mpr h
  have n1 : c ≠ 0x106#12 := by rintro rfl; exact absurd h (by decide)
  have n2 : c ≠ 0x140#12 := by rintro rfl; exact absurd h (by decide)
  have n3 : c ≠ 0x141#12 := by rintro rfl; exact absurd h (by decide)
  simp [csrOfNumber, n1, n2, n3, e]

/-- Every listed number is a supervisor register's or a counter's (30_encoding.md R84). -/
theorem csrOfNumber_cases {x : Xlen} {c : BitVec 12} {r : Csr} (h : csrOfNumber x c = some r) :
    (c = 0x106#12 ∧ r = .scounteren) ∨ (c = 0x140#12 ∧ r = .sscratch) ∨ (c = 0x141#12 ∧ r = .sepc) ∨
    ((0xC00 ≤ c.toNat ∧ c.toNat ≤ 0xC1F) ∧ r = .counter (c.extractLsb' 0 5)) ∨
    (x = .x32 ∧ (0xC80 ≤ c.toNat ∧ c.toNat ≤ 0xC9F) ∧ r = .counterHigh (c.extractLsb' 0 5)) := by
  unfold csrOfNumber at h
  split at h
  · rename_i e; cases h; exact .inl ⟨e, rfl⟩
  split at h
  · rename_i e; cases h; exact .inr (.inl ⟨e, rfl⟩)
  split at h
  · rename_i e; cases h; exact .inr (.inr (.inl ⟨e, rfl⟩))
  split at h
  · rename_i e; cases h; exact .inr (.inr (.inr (.inl ⟨(csrHigh_iff c _).mp e, rfl⟩)))
  split at h
  · rename_i e; cases h; exact .inr (.inr (.inr (.inr ⟨e.2, (csrHigh_iff c _).mp e.1, rfl⟩)))
  · cases h

/-- The gate bit of a counter number is its low five bits (30_encoding.md R85). -/
theorem gate_toNat (c : BitVec 12) : (c.extractLsb' 0 5).toNat = c.toNat % 32 := by
  rw [BitVec.extractLsb'_toNat, Nat.shiftRight_eq_div_pow]
  omega

theorem csrLowestRank_eq (c : BitVec 12) : csrLowestRank c = c.toNat / 256 % 4 := by
  unfold csrLowestRank
  rw [BitVec.extractLsb'_toNat, Nat.shiftRight_eq_div_pow]

theorem csrReadOnly_iff (c : BitVec 12) : csrReadOnly c = true ↔ c.toNat / 1024 = 3 := by
  have := c.isLt
  unfold csrReadOnly
  rw [beq_iff_eq, ← BitVec.toNat_inj, BitVec.extractLsb'_toNat, Nat.shiftRight_eq_div_pow]
  show c.toNat / 2 ^ 10 % 2 ^ 2 = 3 ↔ _
  omega

/-- Which instruction a word spells depends on its fields alone. -/
theorem decodeFields_encodeSystem :
    decodeFields (encodeSystem c a f d) =
      if f = 0b001#3 then .ok (.csrrw d c a)
      else if f = 0b010#3 then .ok (.csrrs d c a)
      else if f = 0b011#3 then .ok (.csrrc d c a)
      else if f = 0b101#3 then .ok (.csrrwi d c a)
      else if f = 0b110#3 then .ok (.csrrsi d c a)
      else if f = 0b111#3 then .ok (.csrrci d c a)
      else if encodeSystem c a f d = 0x10200073#32 then .ok .sret
      else .error .opcode := by
  by_cases hs : encodeSystem c a f d = 0x10200073#32
  · have hf : f = 0#3 := by
      rw [← encodeSystem_funct3 c a d f, hs]; decide
    rw [hs, hf]
    simp [decodeFields]
  · unfold decodeFields
    rw [encodeSystem_low, encodeSystem_opcode, encodeSystem_rd, encodeSystem_funct3,
      encodeSystem_rs1, encodeSystem_csr]
    simp [hs]

end Sys2Proof.Laws
end

