-- ==== Sys2Proof/Laws/Exec.lean ====
section
/-! SUPPORT. Everything an instruction can do, once. -/

namespace Sys2Proof.Laws

open Sys2Proof.Machine

/-- SRET answers a next state exactly when it is let through (41_sret.md R131, R133). -/
theorem execSret_next_iff (s t : State) :
    execSret s = .next t ↔ sretDenied s = false ∧ t = returnFromTrap s := by
  unfold execSret
  cases h : sretDenied s <;> simp [raiseIllegal, eq_comm]

/-- SRET is an exception exactly when it is denied (41_sret.md R133). -/
theorem execSret_fault_iff (s : State) (f : Fault) :
    execSret s = .fault f ↔ sretDenied s = true ∧ f = .trapped .illegalInstruction s.pc := by
  unfold execSret
  cases h : sretDenied s
  · simp
  · simp only [raiseIllegal, ite_true, Host.Outcome.fault.injEq, true_and]
    exact eq_comm

/-- SRET is never refused. -/
theorem execSret_not_refused (s : State) (q : Refusal) : execSret s ≠ .refused q := by
  unfold execSret
  cases h : sretDenied s <;> simp [raiseIllegal]

/-- The inversion of `exec`: a next state is that of SRET let through, or of an access let through, with the
effect of one of the two shapes of CSR instruction. -/
theorem exec_next_cases {i : Instr} {s t : State} (h : exec i s = .next t) :
    (i = .sret ∧ sretDenied s = false ∧ t = returnFromTrap s) ∨
    ∃ rd c r v, i.rdField = some rd ∧ i.csrField = some c ∧ csrOfNumber s.cfg.sxlen c = some r ∧
      csrDenied s c r i.writesCsr = false ∧
      ((i.writesCsr = true ∧ t = swapCsr s rd v r) ∨ ∃ op, t = maskCsr op s rd i.writesCsr v r) := by
  cases i with
  | sret =>
    left
    exact ⟨rfl, (execSret_next_iff s t).mp h⟩
  | csrrw rd c a =>
    obtain ⟨r, hr, hd, rfl⟩ := (csrAccess_next_iff _ _ _ _ _).mp h
    exact .inr ⟨rd, c, r, _, rfl, rfl, hr, hd, .inl ⟨rfl, rfl⟩⟩
  | csrrwi rd c a =>
    obtain ⟨r, hr, hd, rfl⟩ := (csrAccess_next_iff _ _ _ _ _).mp h
    exact .inr ⟨rd, c, r, _, rfl, rfl, hr, hd, .inl ⟨rfl, rfl⟩⟩
  | csrrs rd c a =>
    obtain ⟨r, hr, hd, rfl⟩ := (csrAccess_next_iff _ _ _ _ _).mp h
    exact .inr ⟨rd, c, r, _, rfl, rfl, hr, hd, .inr ⟨.set, rfl⟩⟩
  | csrrsi rd c a =>
    obtain ⟨r, hr, hd, rfl⟩ := (csrAccess_next_iff _ _ _ _ _).mp h
    exact .inr ⟨rd, c, r, _, rfl, rfl, hr, hd, .inr ⟨.set, rfl⟩⟩
  | csrrc rd c a =>
    obtain ⟨r, hr, hd, rfl⟩ := (csrAccess_next_iff _ _ _ _ _).mp h
    exact .inr ⟨rd, c, r, _, rfl, rfl, hr, hd, .inr ⟨.clear, rfl⟩⟩
  | csrrci rd c a =>
    obtain ⟨r, hr, hd, rfl⟩ := (csrAccess_next_iff _ _ _ _ _).mp h
    exact .inr ⟨rd, c, r, _, rfl, rfl, hr, hd, .inr ⟨.clear, rfl⟩⟩

/-- The inversion of `step`: a next state is that of the instruction fetched. -/
theorem step_next_cases {s t : State} (h : step s = .next t) :
    ∃ i, fetchInstr s = .ok i ∧ exec i s = .next t := by
  unfold step at h
  split at h
  · rename_i i hi
    exact ⟨i, hi, h⟩
  · cases h

/-- What no instruction changes (00_scope.md R6, 20_memory.md R69). -/
theorem exec_constant {i : Instr} {s t : State} (h : exec i s = .next t) :
    t.cfg = s.cfg ∧ t.program = s.program ∧ t.ialign = s.ialign := by
  obtain ⟨-, -, rfl⟩ | ⟨rd, c, r, v, -, -, -, -, ⟨-, rfl⟩ | ⟨op, rfl⟩⟩ := exec_next_cases h
  · simp
  · have f := swapCsr_frame s rd v r
    exact ⟨f.1, f.2.1, f.2.2.1⟩
  · have f := maskCsr_frame s op rd i.writesCsr v r
    exact ⟨f.1, f.2.1, f.2.2.1⟩

end Sys2Proof.Laws
end

