-- ==== Sys2Proof/Laws/PerInstr.lean ====
section
/-! SUPPORT. Statements made per instruction, one lemma per constructor. -/

namespace Sys2Proof.Laws.Pattern

/-- The match value of an instruction's row (30_encoding.md R83). -/
def rowMatch : Instr → BitVec 32
  | .csrrw _ _ _ => 0x00001073#32
  | .csrrs _ _ _ => 0x00002073#32
  | .csrrc _ _ _ => 0x00003073#32
  | .csrrwi _ _ _ => 0x00005073#32
  | .csrrsi _ _ _ => 0x00006073#32
  | .csrrci _ _ _ => 0x00007073#32
  | .sret => 0x10200073#32

/-- The mask of an instruction's row (30_encoding.md R83). -/
def rowMask : Instr → BitVec 32
  | .csrrw _ _ _ => 0x0000707F#32
  | .csrrs _ _ _ => 0x0000707F#32
  | .csrrc _ _ _ => 0x0000707F#32
  | .csrrwi _ _ _ => 0x0000707F#32
  | .csrrsi _ _ _ => 0x0000707F#32
  | .csrrci _ _ _ => 0x0000707F#32
  | .sret => 0xFFFFFFFF#32

/-- The word of an instruction lies in the pattern of its own row. -/
def Statement (i : Instr) : Prop := encode i &&& rowMask i = rowMatch i

/-- The SYSTEM layout under the mask of a CSR row shows funct3 and the opcode, and nothing of the operands. -/
theorem encodeSystem_masked (c : BitVec 12) (a : BitVec 5) (f : BitVec 3) (d : BitVec 5) :
    encodeSystem c a f d &&& 0x0000707F#32 = 0#12 ++ 0#5 ++ f ++ 0#5 ++ 0b1110011#7 := by
  have hm : (0x0000707F#32) = 0#12 ++ 0#5 ++ 0b111#3 ++ 0#5 ++ 0b1111111#7 := by decide
  have hf : f &&& 0b111#3 = f := by revert f; decide
  unfold encodeSystem
  rw [hm, BitVec.and_append, BitVec.and_append, BitVec.and_append, BitVec.and_append, hf,
    BitVec.and_zero, BitVec.and_zero, BitVec.and_zero]
  rfl

theorem csrrw (rd : BitVec 5) (csr : BitVec 12) (rs1 : BitVec 5) : Statement (.csrrw rd csr rs1) :=
  (encodeSystem_masked csr rs1 0b001#3 rd).trans rfl

theorem csrrs (rd : BitVec 5) (csr : BitVec 12) (rs1 : BitVec 5) : Statement (.csrrs rd csr rs1) :=
  (encodeSystem_masked csr rs1 0b010#3 rd).trans rfl

theorem csrrc (rd : BitVec 5) (csr : BitVec 12) (rs1 : BitVec 5) : Statement (.csrrc rd csr rs1) :=
  (encodeSystem_masked csr rs1 0b011#3 rd).trans rfl

theorem csrrwi (rd : BitVec 5) (csr : BitVec 12) (uimm : BitVec 5) : Statement (.csrrwi rd csr uimm) :=
  (encodeSystem_masked csr uimm 0b101#3 rd).trans rfl

theorem csrrsi (rd : BitVec 5) (csr : BitVec 12) (uimm : BitVec 5) : Statement (.csrrsi rd csr uimm) :=
  (encodeSystem_masked csr uimm 0b110#3 rd).trans rfl

theorem csrrci (rd : BitVec 5) (csr : BitVec 12) (uimm : BitVec 5) : Statement (.csrrci rd csr uimm) :=
  (encodeSystem_masked csr uimm 0b111#3 rd).trans rfl

theorem sret : Statement .sret := by
  unfold Statement encode rowMask rowMatch
  decide

end Sys2Proof.Laws.Pattern
end

