-- ==== Sys2Proof/Laws/Program.lean ====
section
/-! SUPPORT. PROGRAM (20_memory.md R69): what is placed is found, everything else stays, the canonical form is
kept, and the placed word is the one the next step fetches. -/

namespace Sys2Proof.Laws

open Sys2Proof.Machine

theorem programLookup_put (p : Program) (a b : Nat) (w : BitVec 32) :
    programLookup (programPut p a w) b = if b = a then some w else programLookup p b := by
  induction p with
  | nil => simp [programPut, programLookup]
  | cons e p ih =>
    obtain ⟨c, v⟩ := e
    unfold programPut
    split
    · rfl
    · split
      · rename_i h
        subst h
        simp only [programLookup]
        split <;> rfl
      · simp only [programLookup, ih]
        split <;> split <;> simp_all

/-- Reading PROGRAM after a word is placed at a multiple of 4. -/
theorem programGet_put (p : Program) {a : Nat} (ha : a % 4 = 0) (b : Nat) (w : BitVec 32) :
    programGet (programPut p a w) b = if b = a then some w else programGet p b := by
  unfold programGet
  rw [programLookup_put]
  by_cases h : b = a
  · subst h; simp [ha]
  · simp [h]

theorem programWfFrom_put (top : Nat) (p : Program) (lo a : Nat) (w : BitVec 32)
    (h : programWfFrom top lo p = true) (hlo : lo ≤ a) (ha : a % 4 = 0) (ht : a < top) :
    programWfFrom top lo (programPut p a w) = true := by
  induction p generalizing lo with
  | nil => simp [programPut, programWfFrom, hlo, ha, ht]
  | cons e p ih =>
    obtain ⟨b, v⟩ := e
    simp only [programWfFrom, Bool.and_eq_true, decide_eq_true_eq] at h
    obtain ⟨⟨⟨h1, h2⟩, h3⟩, h4⟩ := h
    unfold programPut
    split
    · rename_i hab
      simp only [programWfFrom, Bool.and_eq_true, decide_eq_true_eq]
      exact ⟨⟨⟨hlo, ha⟩, ht⟩, ⟨⟨hab, h2⟩, h3⟩, h4⟩
    · split
      · rename_i hab
        subst hab
        simp only [programWfFrom, Bool.and_eq_true, decide_eq_true_eq]
        exact ⟨⟨⟨hlo, ha⟩, ht⟩, h4⟩
      · simp only [programWfFrom, Bool.and_eq_true, decide_eq_true_eq]
        exact ⟨⟨⟨h1, h2⟩, h3⟩, ih _ h4 (by omega)⟩

/-- The one operation that changes a listing keeps its canonical form. -/
theorem programWf_put (x : Xlen) (p : Program) (a : Nat) (w : BitVec 32)
    (h : programWf x p = true) (ha : a % 4 = 0) (ht : a < 2 ^ x.bits) :
    programWf x (programPut p a w) = true :=
  programWfFrom_put _ p 0 a w h (Nat.zero_le a) ha ht

/-- The listing of the reset state is in canonical form. -/
theorem reset_programWf : programWf State.reset.cfg.sxlen State.reset.program = true := by decide

/-- The address `placeWord` uses is a multiple of 4. -/
theorem clearLow_mod_four (v : Word) : (v &&& ~~~ 3#64).toNat % 4 = 0 := by
  rw [mod_four_eq]
  simp

/-- The placed word is what the next step decodes and runs, whatever the state. -/
theorem step_placeWord (s : State) (w : BitVec 32) :
    step (placeWord s w) =
      match decode s.cfg.sxlen w with
      | .ok i => exec i (placeWord s w)
      | .error .length => .refused (.length w)
      | .error .opcode => .refused (.opcode w)
      | .error .csr => .refused (.csr (w.extractLsb' 20 12)) := by
  have h4 := clearLow_mod_four s.pc
  have hb : (s.pc &&& ~~~ 3#64).toNat % s.ialign.bytes = 0 := by
    cases s.ialign <;> simp only [IAlign.bytes] <;> omega
  have hg : programGet (placeWord s w).program (s.pc &&& ~~~ 3#64).toNat = some w := by
    rw [placeWord_program, programGet_put _ h4]
    simp
  unfold step fetchInstr
  rw [placeWord_pc, placeWord_ialign, placeWord_cfg, hg]
  simp only [hb, ne_eq, not_true, ite_false]
  cases hd : decode s.cfg.sxlen w with
  | ok i => rfl
  | error r => cases r <;> rfl

end Sys2Proof.Laws
end

