-- ==== Sys2Proof/Tests/Slice0.lean ====
section
/-! SUPPORT. Tests on words and values of 95_test_vectors.md (each names its vector; all are derived by hand in
the spec, none from a run), ill-formed terms, and for every statement states and operands that meet its
hypotheses. -/

namespace Sys2Proof.Tests

open Sys2Proof Sys2Proof.Machine Sys2Proof.Safety Sys2Proof.Claims

/-! ### Helpers -/

/-- A field of the next state, if there is one. -/
def after {α : Type} (o : Host.Outcome State Fault Refusal) (f : State → α) : Option α :=
  match o with
  | .next t => some (f t)
  | .fault _ => none
  | .refused _ => none

/-- The fault of an outcome. -/
def faultOf (o : Host.Outcome State Fault Refusal) : Option Fault :=
  match o with
  | .fault f => some f
  | .next _ => none
  | .refused _ => none

/-- The refusal of an outcome. -/
def refusalOf (o : Host.Outcome State Fault Refusal) : Option Refusal :=
  match o with
  | .refused q => some q
  | .next _ => none
  | .fault _ => none

/-- The set-up of 95_test_vectors.md section 2: XLEN = 32, mode S, nothing hardwired, `pc` as in P1. -/
def launch : State := { State.reset with mode := .S, pc := 0x80000000#64 }

/-- A launch in U-mode with some bits of `scounteren`. -/
def user (en : BitVec 32) : State := { launch with mode := .U, scounteren := en }

/-- A launch with an IALIGN support, an IALIGN and a stored `sepc`. -/
def epc (k : IAlignSupport) (a : IAlign) (v : Word) : State :=
  { launch with cfg := { launch.cfg with ialignSupport := k }, ialign := a, sepc := v }

/-- A launch on a machine with SXLEN = 64. -/
def wide : State := { launch with cfg := { launch.cfg with sxlen := .x64 } }

/-- A launch in which `x[n]` holds `v`. -/
def withX (s : State) (n : BitVec 5) (v : Word) : State := writeReg s n v

/-- One step on a word placed at `pc`. -/
def run (s : State) (w : Nat) : Host.Outcome State Fault Refusal := step (s.withFetchWord 32 w)

/-! ### Decoding and well-formedness -/

theorem test_decode_csrrw : decode .x32 0x14051573#32 = .ok (.csrrw 10#5 0x140#12 10#5) := by decide
theorem test_decode_csrrs : decode .x32 0xC1F02573#32 = .ok (.csrrs 10#5 0xC1F#12 0#5) := by decide
theorem test_decode_csrrc : decode .x32 0x1412B373#32 = .ok (.csrrc 6#5 0x141#12 5#5) := by decide
theorem test_decode_csrrwi : decode .x32 0x141FD073#32 = .ok (.csrrwi 0#5 0x141#12 31#5) := by decide
theorem test_decode_csrrsi : decode .x32 0x14006073#32 = .ok (.csrrsi 0#5 0x140#12 0#5) := by decide
theorem test_decode_csrrci : decode .x32 0x1060F073#32 = .ok (.csrrci 0#5 0x106#12 1#5) := by decide
theorem test_decode_sret : decode .x32 0x10200073#32 = .ok .sret := by decide

/-- V25e, V25f, V25g, V25k: refused, not illegal. -/
theorem test_decode_refuses_opcode :
    decode .x32 0x30200073#32 = .error .opcode ∧ decode .x32 0x10500073#32 = .error .opcode ∧
    decode .x32 0x00000013#32 = .error .opcode ∧ decode .x32 0x14004073#32 = .error .opcode := by decide

/-- V25h. -/
theorem test_decode_refuses_length : decode .x32 0x00000001#32 = .error .length := by decide

/-- V25i, V25j, V16d. -/
theorem test_decode_refuses_csr :
    decode .x32 0x301022F3#32 = .error .csr ∧ decode .x32 0x100022F3#32 = .error .csr ∧
    decode .x64 0xC8002573#32 = .error .csr := by decide

/-- The row's word with every operand field zero. -/
theorem test_decodeTableWord :
    decodeTableWord 32 0x00001073 = some (.csrrw 0#5 0#12 0#5) ∧ decodeTableWord 32 0x10200073 = some .sret := by
  decide

/-- The one check of `wellFormed`, on terms it refuses: `misa`, the number past `hpmcounter31`, and an upper half
with XLEN = 64. -/
theorem test_wellFormed_refuses :
    wellFormed .x32 (.csrrs 5#5 0x301#12 0#5) = false ∧ wellFormed .x32 (.csrrw 0#5 0xC20#12 1#5) = false ∧
    wellFormed .x32 (.csrrc 0#5 0xC7F#12 1#5) = false ∧ wellFormed .x32 (.csrrwi 0#5 0xCA0#12 1#5) = false ∧
    wellFormed .x64 (.csrrsi 0#5 0xC80#12 0#5) = false ∧ wellFormed .x64 (.csrrci 0#5 0xC9F#12 0#5) = false := by
  decide

theorem test_wellFormed_accepts :
    wellFormed .x32 (.csrrs 5#5 0xC9F#12 0#5) = true ∧ wellFormed .x64 (.csrrs 5#5 0xC1F#12 0#5) = true ∧
    wellFormed .x64 .sret = true := by decide

/-- R89: `rdtime a1` and `csrr t0, scounteren` spell the words of V13b and V21. -/
theorem test_spellings :
    encode (asmRdtime 11#5) = 0xC01025F3#32 ∧ encode (asmRdcycleh 10#5) = 0xC8002573#32 ∧
    encode (asmCsrr 5#5 0x106#12) = 0x106022F3#32 ∧ encode (asmCsrw 0x140#12 5#5) = 0x14029073#32 := by decide

/-! ### One step of each instruction -/

/-- V20: the swap. -/
theorem test_csrrw_swap :
    after (run { withX launch 10#5 0x1111#64 with sscratch := 0x2222#64 } 0x14051573)
      (fun t => (readReg t 10#5, t.sscratch, t.pc)) = some (0x2222#64, 0x1111#64, 0x80000004#64) := by decide

/-- V7, V8, V9: what a write of 0x80000007 to `sepc` stores and what it then reads as. -/
theorem test_csrrw_sepc :
    after (run (withX (epc .only32 .i32 0#64) 5#5 0x80000007#64) 0x14129073)
      (fun t => (t.sepc, readSepc t)) = some (0x80000004#64, 0x80000004#64) ∧
    after (run (withX (epc .only16 .i16 0#64) 5#5 0x80000007#64) 0x14129073)
      (fun t => (t.sepc, readSepc t)) = some (0x80000006#64, 0x80000006#64) ∧
    after (run (withX (epc .both .i32 0#64) 5#5 0x80000007#64) 0x14129073)
      (fun t => (t.sepc, readSepc t)) = some (0x80000006#64, 0x80000004#64) := by decide

/-- V21d: a hardwired bit stays zero when set. -/
theorem test_csrrs_hardwired :
    after (run { withX launch 5#5 5#64 with
        cfg := { launch.cfg with scounterenHz := 4#32 }, scounteren := 2#32 } 0x1062A373)
      (fun t => (readReg t 6#5, t.scounteren)) = some (2#64, 3#32) := by decide

/-- V17: the hidden bit is open, so the stored value is one of two, and nothing else is. -/
theorem test_csrrs_hidden_bit :
    after (run (withX (epc .both .i32 0x80000106#64) 5#5 8#64) 0x1412A373)
      (fun t => (readReg t 6#5, t.draws)) = some (0x80000104#64, 1) ∧
    after (run (withX (epc .both .i32 0x80000106#64) 5#5 8#64) 0x1412A373) (fun t => t.sepc) =
      some (fit .x32 (setBit 0x8000010C#64 1 (Config.hiddenBitDraw .set 8#64 0))) ∧
    fit .x32 (setBit 0x8000010C#64 1 false) = 0x8000010C#64 ∧
    fit .x32 (setBit 0x8000010C#64 1 true) = 0x8000010E#64 :=
  ⟨by decide, rfl, by decide, by decide⟩

/-- V21c. -/
theorem test_csrrc_scounteren :
    after (run { withX launch 5#5 5#64 with scounteren := 7#32 } 0x1062B373)
      (fun t => (readReg t 6#5, t.scounteren)) = some (7#64, 2#32) := by decide

/-- V18b. -/
theorem test_csrrc_sepc :
    after (run (withX (epc .both .i32 0x80000106#64) 5#5 6#64) 0x1412B373)
      (fun t => (readReg t 6#5, t.sepc)) = some (0x80000104#64, 0x80000100#64) := by decide

/-- V12b, V12c. -/
theorem test_csrrwi_sepc :
    after (run (epc .only32 .i32 0#64) 0x141FD073) (fun t => (t.sepc, readSepc t)) = some (0x1C#64, 0x1C#64) ∧
    after (run (epc .both .i32 0#64) 0x141FD073) (fun t => (t.sepc, readSepc t)) = some (0x1E#64, 0x1C#64) := by
  decide

/-- V23. -/
theorem test_csrrwi_sscratch :
    after (run { launch with sscratch := 0xABCD#64 } 0x140FD2F3)
      (fun t => (readReg t 5#5, t.sscratch)) = some (0xABCD#64, 0x1F#64) := by decide

/-- V23c. -/
theorem test_csrrsi_scounteren :
    after (run { launch with scounteren := 1#32 } 0x10616073) (fun t => t.scounteren) = some 3#32 := by decide

/-- V22: a mask of 0 writes nothing. -/
theorem test_csrrsi_zero :
    after (run { launch with sscratch := 0x77#64 } 0x14006073)
      (fun t => (t.sscratch, t.pc)) = some (0x77#64, 0x80000004#64) := by decide

/-- V23b. -/
theorem test_csrrci_sscratch :
    after (run { launch with sscratch := 0xFF#64 } 0x140872F3)
      (fun t => (readReg t 5#5, t.sscratch)) = some (0xFF#64, 0xEF#64) := by decide

/-- V23d. -/
theorem test_csrrci_scounteren :
    after (run { launch with scounteren := 3#32 } 0x1060F073) (fun t => t.scounteren) = some 2#32 := by decide

/-- V24a, V24b: the target is masked while `ialign` is 32, and `sepc_s` keeps its bit. -/
theorem test_sret_masked :
    after (run (epc .both .i32 0x80000106#64) 0x10200073)
      (fun t => (t.pc, t.mode, t.spp, t.sepc)) = some (0x80000104#64, .U, .U, 0x80000106#64) ∧
    after (run (epc .both .i16 0x80000106#64) 0x10200073)
      (fun t => (t.pc, t.mode)) = some (0x80000106#64, .U) := by decide

/-- V24d, V24e, V24f. -/
theorem test_sret_modes :
    faultOf (run (user 0#32) 0x10200073) = some (.trapped .illegalInstruction 0x80000000#64) ∧
    faultOf (run { launch with cfg := { launch.cfg with mTsr := true } } 0x10200073) =
      some (.trapped .illegalInstruction 0x80000000#64) ∧
    after (run { launch with mode := .M, spp := .S, sepc := 0x1000#64 } 0x10200073)
      (fun t => (t.pc, t.mode, t.spp)) = some (0x1000#64, .S, .U) := by decide

/-- V13a, V13b, V14a, V14b, V16a, V16b, V19: who may read a counter from U-mode. -/
theorem test_counter_gate :
    faultOf (run (user 2#32) 0xC0002573) = some (.trapped .illegalInstruction 0x80000000#64) ∧
    after (run (user 2#32) 0xC01025F3) (fun t => (t.pc, t.draws)) = some (0x80000004#64, 1) ∧
    after (run (user 0x80000000#32) 0xC1F02573) (fun t => t.pc) = some 0x80000004#64 ∧
    faultOf (run (user 0x80000000#32) 0xC0302573) = some (.trapped .illegalInstruction 0x80000000#64) ∧
    faultOf (run (user 0xFFFFFFFF#32) 0xC0029073) = some (.trapped .illegalInstruction 0x80000000#64) ∧
    faultOf (run (user 0xFFFFFFFF#32) 0xC002A573) = some (.trapped .illegalInstruction 0x80000000#64) ∧
    faultOf (run (user 0xFFFFFFFF#32) 0x140022F3) = some (.trapped .illegalInstruction 0x80000000#64) := by decide

/-- V15a, V15b, V16c, V16d. -/
theorem test_counter_modes :
    after (run launch 0xC0002573) (fun t => t.pc) = some 0x80000004#64 ∧
    faultOf (run { launch with cfg := { launch.cfg with mCounterGate := 0xFFFFFFFE#32 }, scounteren := 0xFFFFFFFF#32 }
      0xC0002573) = some (.trapped .illegalInstruction 0x80000000#64) ∧
    after (run (user 1#32) 0xC8002573) (fun t => t.pc) = some 0x80000004#64 ∧
    refusalOf (run wide 0xC8002573) = some (.csr 0xC80#12) := by decide

/-- V5, V12: XLEN = 64. -/
theorem test_xlen_64 :
    after (run (withX wide 5#5 0xFFFFFFFF00000005#64) 0x10629073) (fun t => t.scounteren) = some 5#32 ∧
    after (run (withX wide 5#5 0xFFFFFFFFFFFFFFFF#64) 0x14129073) (fun t => (t.sepc, readSepc t)) =
      some (0xFFFFFFFFFFFFFFFE#64, 0xFFFFFFFFFFFFFFFC#64) := by decide

/-- P3 (c): an address that is 2 modulo 4 is outside PROGRAM; `pc + 4` wraps modulo 2^XLEN (R52). -/
theorem test_fetch_edges :
    refusalOf (step { epc .both .i16 0#64 with pc := 0x80000102#64 }) = some (.left 0x80000102#64) ∧
    refusalOf (step { launch with pc := 0x80000102#64 }) = some (.misalignedLaunch 0x80000102#64) ∧
    after (run { launch with pc := 0xFFFFFFFC#64 } 0x14006073) (fun t => t.pc) = some 0#64 := by decide

/-- The first instruction after reset, with the word placed where reset fetches: SRET, and `csrr t0, scounteren`. -/
theorem test_first_after_reset :
    after (run State.reset 0x10200073) (fun t => (t.pc, t.mode)) = some (0#64, .U) ∧
    after (run State.reset 0x106022F3) (fun t => (t.pc, t.mode)) = some (4#64, .M) ∧
    refusalOf (step State.reset) = some (.left 0#64) := by decide

/-! ### The hypotheses of the statements can be met -/

/-- The launch invariant from its twelve decidable parts. -/
theorem inv_of_parts {s : State}
    (h : (s.scounteren &&& s.cfg.scounterenHz = 0#32 ∧ s.sepc.getLsbD 0 = false ∧
      (s.cfg.ialignSupport = .only32 → s.sepc.getLsbD 1 = false ∧ s.ialign = .i32) ∧
      (s.cfg.ialignSupport = .only16 → s.ialign = .i16) ∧ (readSepc s).toNat % s.ialign.bytes = 0 ∧
      readReg s 0#5 = 0#64) ∧ s.pc.toNat % s.ialign.bytes = 0 ∧ Fits s.cfg.sxlen s.pc ∧
      Fits s.cfg.sxlen s.sscratch ∧ Fits s.cfg.sxlen s.sepc ∧
      (∀ n : BitVec 5, Fits s.cfg.sxlen (readReg s n)) ∧ programWf s.cfg.sxlen s.program = true) : Inv s :=
  ⟨h.1.1, h.1.2.1, h.1.2.2.1, h.1.2.2.2.1, h.1.2.2.2.2.1, h.1.2.2.2.2.2, h.2.1, h.2.2.1, h.2.2.2.1,
    h.2.2.2.2.1, h.2.2.2.2.2.1, h.2.2.2.2.2.2⟩

theorem inv_launch : Inv launch := inv_of_parts (by decide)
theorem inv_user : Inv (user 0x80000000#32) := inv_of_parts (by decide)
theorem inv_only32 : Inv (epc .only32 .i32 0x80000104#64) := inv_of_parts (by decide)
theorem inv_only16 : Inv (epc .only16 .i16 0x80000106#64) := inv_of_parts (by decide)
theorem inv_both : Inv (epc .both .i32 0x80000106#64) := inv_of_parts (by decide)
theorem inv_both16 : Inv (epc .both .i16 0x80000106#64) := inv_of_parts (by decide)
theorem inv_wide : Inv wide := inv_of_parts (by decide)

/-- A machine with IR hardwired to zero. -/
def hardwired : State := { launch with cfg := { launch.cfg with scounterenHz := 4#32 } }

theorem inv_hardwired : Inv hardwired := inv_of_parts (by decide)

/-- DecodeOfEncodeIsTheInstruction, both branches of its `if`. -/
theorem witness_wellFormed :
    wellFormed .x32 (.csrrs 5#5 0xC9F#12 0#5) = true ∧ wellFormed .x64 (.csrrs 5#5 0xC9F#12 0#5) = false := by decide

/-- EncodeOfDecodeIsTheWord. -/
theorem witness_decodes : decode .x64 0xC1F02573#32 = .ok (.csrrs 10#5 0xC1F#12 0#5) := by decide

theorem listed_low : ListedNumber .x64 0xC1F#12 := .inr (.inl (by decide))
theorem listed_high : ListedNumber .x32 0xC9F#12 := .inr (.inr (by decide))
theorem counter_low : CounterNumber .x32 0xC1F#12 := .inl (by decide)
theorem counter_high : CounterNumber .x32 0xC80#12 := .inr (by decide)
theorem unlisted_misa (x : Xlen) : ¬ ListedNumber x 0x301#12 := by
  simp [ListedNumber, SupervisorNumber, CounterNumber]
theorem unlisted_high : ¬ ListedNumber .x64 0xC80#12 := by
  simp [ListedNumber, SupervisorNumber, CounterNumber]
theorem unlisted_past : ¬ ListedNumber .x32 0xCA0#12 := by
  simp [ListedNumber, SupervisorNumber, CounterNumber]

/-- DecodeFollowsItsPseudocode: a word for each clause. -/
theorem witness_words :
    (0x00000001#32).toNat % 4 ≠ 3 ∧
    ((0x00000013#32).toNat % 4 = 3 ∧ (0x00000013#32).toNat % 128 ≠ 0x73) ∧
    ((0xCA002573#32).toNat % 128 = 0x73 ∧ 0xCA002573#32 ≠ 0x10200073#32 ∧
      (0xCA002573#32).extractLsb' 20 12 = 0xCA0#12) ∧
    ((0xC9F02573#32).toNat % 128 = 0x73 ∧ 0xC9F02573#32 ≠ 0x10200073#32 ∧
      (0xC9F02573#32).extractLsb' 20 12 = 0xC9F#12) := by decide

/-- StepRunsTheDecodedInstruction. -/
theorem witness_fetch :
    let s := launch.withFetchWord 32 0x14051573
    s.pc.toNat % s.ialign.bytes = 0 ∧ programGet s.program s.pc.toNat = some 0x14051573#32 ∧
      decode s.cfg.sxlen 0x14051573#32 = .ok (.csrrw 10#5 0x140#12 10#5) := by decide

/-- StepRefusals: a state for each clause. -/
theorem witness_refusals :
    ({ launch with pc := 2#64 } : State).pc.toNat % launch.ialign.bytes ≠ 0 ∧
    (({ epc .both .i16 0#64 with pc := 2#64 } : State).pc.toNat % (epc .both .i16 0#64).ialign.bytes = 0 ∧
      ({ epc .both .i16 0#64 with pc := 2#64 } : State).pc.toNat % 4 ≠ 0) ∧
    programGet launch.program launch.pc.toNat = none ∧
    programGet (launch.withFetchWord 32 1).program launch.pc.toNat = some 1#32 ∧
    decode launch.cfg.sxlen 1#32 = .error .length ∧ decode launch.cfg.sxlen 0x13#32 = .error .opcode ∧
    decode launch.cfg.sxlen 0x301022F3#32 = .error .csr := by decide

/-- UnlistedCsrNumberIsRefused, an instruction that is. -/
theorem witness_unlisted : refusalOf (exec (.csrrs 5#5 0x301#12 0#5) launch) = some (.csr 0x301#12) := by decide

/-- AccessRaisesInFourCases and the instruction statements: a state in each of the cases, and one in none. -/
theorem witness_raises :
    CheckRaises (user 0#32) 0x140#12 false ∧ CheckRaises launch 0xC00#12 true ∧
    CheckRaises (user 0x7FFFFFFF#32) 0xC1F#12 false ∧
    CheckRaises { launch with cfg := { launch.cfg with mCounterGate := 0x7FFFFFFF#32 } } 0xC9F#12 false :=
  ⟨.inl (by decide), .inr (.inr (.inl (by decide))),
    .inr (.inr (.inr (.inl ⟨.inl (by decide), by decide, by decide⟩))),
    .inr (.inr (.inr (.inr ⟨.inr (by decide), by decide, by decide⟩)))⟩

theorem witness_not_raises_supervisor :
    ¬ CheckRaises launch 0x106#12 true ∧ ¬ CheckRaises launch 0x140#12 true ∧
    ¬ CheckRaises (epc .both .i32 0x80000106#64) 0x141#12 true := by
  simp [CheckRaises, CounterNumber, launch, epc]

theorem witness_not_raises_counter : ¬ CheckRaises (user 0x80000000#32) 0xC9F#12 false := by
  simp [CheckRaises, CounterNumber, user, launch, State.reset, resetConfig]

/-- EveryExceptionIsIllegalInstruction. -/
theorem witness_fault :
    faultOf (step ((user 0#32).withFetchWord 32 0xC0002573)) = some (.trapped .illegalInstruction 0x80000000#64) := by
  decide

/-- SupervisorRegistersNeedSupervisorMode and ScounterenIsImplemented: each register and each mode. -/
theorem witness_supervisor :
    SupervisorNumber 0x106#12 ∧ SupervisorNumber 0x140#12 ∧ SupervisorNumber 0x141#12 ∧ launch.mode = .S ∧
      (user 0#32).mode = .U ∧ State.reset.mode = .M :=
  ⟨.inl rfl, .inr (.inl rfl), .inr (.inr rfl), rfl, rfl, rfl⟩

/-- The six CSR statements: a launch with a listed number of each kind. -/
theorem witness_csr_statements :
    (Inv launch ∧ ListedNumber launch.cfg.sxlen 0x140#12) ∧
    (Inv (user 0x80000000#32) ∧ CounterNumber (user 0x80000000#32).cfg.sxlen 0xC9F#12) ∧
    (Inv (epc .both .i32 0x80000106#64) ∧ Masked (epc .both .i32 0x80000106#64)) :=
  ⟨⟨inv_launch, .inl (.inr (.inl rfl))⟩, ⟨inv_user, .inr (by decide)⟩, ⟨inv_both, rfl, rfl⟩⟩

/-- SretNeedsItsMode and SretReturns: SRET denied, and let through to either mode. -/
theorem witness_sret :
    Inv (user 0x80000000#32) ∧ Inv { launch with cfg := { launch.cfg with mTsr := true } } ∧
    Inv { launch with mode := .M, spp := .S } ∧ Inv launch ∧
    after (exec .sret { launch with mode := .M, spp := .S }) (fun t => t.mode) = some .S ∧
    after (exec .sret launch) (fun t => t.mode) = some .U ∧
    programGet launch.program launch.sepc.toNat = none :=
  ⟨inv_user, inv_of_parts (by decide), inv_of_parts (by decide), inv_launch, by decide, by decide, by decide⟩

/-- The counter statements: both values of a gate bit at 31 and 0, in the three modes. -/
theorem witness_counters :
    Instr.csrField (.csrrs 10#5 0xC1F#12 0#5) = some 0xC1F#12 ∧ CounterNumber .x32 0xC1F#12 ∧
    CounterNumber .x32 0xC80#12 ∧ Instr.writesCsr (.csrrs 10#5 0xC1F#12 0#5) = false ∧
    Instr.writesCsr (.csrrci 10#5 0xC80#12 31#5) = true ∧
    (user 0x80000000#32).scounteren.getLsbD ((0xC1F#12).toNat % 32) = true ∧
    (user 0x80000000#32).scounteren.getLsbD ((0xC80#12).toNat - 0xC80) = false ∧
    launch.cfg.mCounterGate.getLsbD ((0xC1F#12).toNat % 32) = true ∧
    ({ launch with cfg := { launch.cfg with mCounterGate := 0#32 } } : State).cfg.mCounterGate.getLsbD
      ((0xC80#12).toNat % 32) = false :=
  ⟨rfl, counter_low, counter_high, by decide, by decide, by decide, by decide, by decide, by decide⟩

/-- OnlyReadingFormsPassOnACounter and CounterReadReturnsAFreeValue: a counter read that passes. -/
theorem witness_counter_read :
    after (exec (.csrrci 10#5 0xC9F#12 0#5) (user 0x80000000#32)) (fun t => t.draws) = some 1 := by decide

/-- ScounterenStoresWhatIsNotHardwired: a later state that holds what was written. -/
theorem witness_scounteren :
    (({ hardwired with scounteren := 3#32 } : State).cfg = hardwired.cfg ∧ hardwired.mode ≠ .U ∧
        3#32 = (readReg (withX hardwired 5#5 7#64) 5#5).setWidth 32 &&& ~~~ hardwired.cfg.scounterenHz) := by
  decide

/-- HardwiredBitsStayZero: a hardwired bit, a write to it, a read of it, and the read of its counter from
U-mode. -/
theorem witness_hardwired :
    Inv hardwired ∧ hardwired.cfg.scounterenHz.getLsbD 2 = true ∧
    after (exec (.csrrwi 5#5 0x106#12 31#5) hardwired) (fun t => t.scounteren) = some 27#32 ∧
    Inv { hardwired with mode := .U } ∧ (0xC02#12).toNat % 32 = 2 :=
  ⟨inv_hardwired, by decide, by decide, inv_of_parts (by decide), by decide⟩

/-- SscratchHasNoImplicitUse: a write that changes `sscratch`, and an instruction that does not name it. -/
theorem witness_sscratch :
    after (exec (.csrrwi 0#5 0x140#12 1#5) launch) (fun t => decide (t.sscratch ≠ launch.sscratch)) = some true ∧
    Instr.csrField .sret ≠ some 0x140#12 := by decide

/-- The `sscratch` and `sepc` statements: a launch for each IALIGN support and each IALIGN it allows, with
`sepc[1]` stored where it can be, in which explicit reads and SRET go through. -/
theorem witness_sepc :
    (Inv (epc .only32 .i32 0x80000104#64) ∧ Inv (epc .only16 .i16 0x80000106#64) ∧
      Inv (epc .both .i32 0x80000106#64) ∧ Inv (epc .both .i16 0x80000106#64)) ∧
    after (exec (.csrrs 5#5 0x141#12 0#5) (epc .both .i16 0x80000106#64)) (fun t => readReg t 5#5) =
      some 0x80000106#64 ∧
    after (exec (.csrrs 5#5 0x141#12 0#5) (epc .only32 .i32 0x80000104#64)) (fun t => readReg t 5#5) =
      some 0x80000104#64 ∧
    after (exec .sret (epc .only32 .i32 0x80000104#64)) (fun t => t.pc) = some 0x80000104#64 ∧
    after (exec .sret (epc .only16 .i16 0x80000106#64)) (fun t => t.pc) = some 0x80000106#64 :=
  ⟨⟨inv_only32, inv_only16, inv_both, inv_both16⟩, by decide, by decide, by decide, by decide⟩

/-- SepcWriteStoresTheOtherBits with XLEN = 64, whose top bit is bit 63. -/
theorem witness_sepc_wide : Inv wide ∧ wide.mode ≠ .U ∧ wide.cfg.sepcLegalize = .identity ∧ 63 < wide.cfg.sxlen.bits :=
  ⟨inv_wide, by decide, rfl, by decide⟩

/-- EveryStepKeepsTheLaunchInvariant and NoStepChangesTheLaunch: a launch that steps. -/
theorem witness_step :
    Inv (launch.withFetchWord 32 0x14129073) ∧
    after (step (launch.withFetchWord 32 0x14129073)) (fun t => t.pc) = some 0x80000004#64 :=
  ⟨inv_of_parts (by decide), by decide⟩

/-- OnlySretChangesTheMode, CsrInstructionsChangeNothingElse, ZeroRegisterDiscardsWrites: an instruction of
each shape that answers a next state. -/
theorem witness_frames :
    after (exec (.csrrw 0#5 0x141#12 0#5) launch) (fun t => t.pc) = some 0x80000004#64 ∧
    after (exec (.csrrsi 31#5 0x106#12 0#5) launch) (fun t => t.pc) = some 0x80000004#64 ∧
    after (exec .sret launch) (fun t => t.mode) = some .U := by decide

/-- UserCodeIsIsolatedFromTheSupervisor: user code that steps. -/
theorem witness_user_step :
    after (step ((user 2#32).withFetchWord 32 0xC01025F3)) (fun t => t.mode) = some .U := by decide

/-- CsrWriteGovernsWhatFollows: a supervisor that returns to user code, and the values of the source that grant
and deny. -/
theorem witness_grant :
    Inv launch ∧ launch.mode = .S ∧ launch.cfg.mTsr = false ∧ launch.spp = .U ∧
    launch.cfg.sepcLegalize = .identity ∧ launch.cfg.mCounterGate.getLsbD 0 = true ∧
    ((readReg (withX launch 5#5 1#64) 5#5).setWidth 32 &&& ~~~ launch.cfg.scounterenHz).getLsbD 0 = true ∧
    ((readReg launch 5#5).setWidth 32 &&& ~~~ launch.cfg.scounterenHz).getLsbD 0 = false :=
  ⟨inv_launch, rfl, rfl, rfl, rfl, by decide, by decide, by decide⟩

end Sys2Proof.Tests
end

namespace Sys2Proof.Proofs

open Sys2Proof.Machine Sys2Proof.Laws Sys2Proof.Claims

/-- Every word of PROGRAM is kept once the listing is (20_memory.md R69). -/
theorem launchSame_iff {s t : State} :
    LaunchSame s t ↔ t.cfg = s.cfg ∧ t.program = s.program ∧ t.ialign = s.ialign where
  mp := fun ⟨hcfg, hprogram, hialign, _⟩ => ⟨hcfg, hprogram, hialign⟩
  mpr := fun ⟨hcfg, hprogram, hialign⟩ =>
    ⟨hcfg, hprogram, hialign, fun a => congrArg (programGet · a) hprogram⟩

/-- No instruction changes the launch (00_scope.md R3, R6). -/
theorem exec_launchSame {i : Instr} {s t : State} (h : exec i s = .next t) : LaunchSame s t :=
  launchSame_iff.mpr (exec_constant h)

/-- Settles O39: a step is the execution of the instruction fetched, and no instruction changes the launch. -/
theorem noStepChangesTheLaunch : Obligations.NoStepChangesTheLaunch := by
  intro s t h
  obtain ⟨i, -, hexec⟩ := step_next_cases h
  exact exec_launchSame hexec

end Sys2Proof.Proofs

namespace Sys2Proof.Proofs

open Sys2Proof.Machine Sys2Proof.Laws Sys2Proof.Safety

/-! ### The launch invariant (10_state.md R57): one rule per update of the state -/

section Invariant

variable {s : State}

/-- A clear bit stays clear when a word is cut to XLEN bits. -/
theorem getLsbD_fit_of_clear {x : Xlen} {v : Word} {i : Nat} (h : v.getLsbD i = false) :
    (fit x v).getLsbD i = false := by
  rw [getLsbD_fit, h, Bool.and_false]

/-- A clear bit of the stored `sepc` reads as zero. -/
theorem getLsbD_readSepc_of_clear {i : Nat} (h : s.sepc.getLsbD i = false) :
    (readSepc s).getLsbD i = false := by
  rw [getLsbD_readSepc, h, Bool.false_and]

/-- What the stored `sepc` reads as is aligned, by its always-zero bits and the mask (10_state.md R57 (e)). -/
theorem readSepc_aligned (h0 : s.sepc.getLsbD 0 = false)
    (h32 : s.cfg.ialignSupport = .only32 → s.sepc.getLsbD 1 = false)
    (h16 : s.cfg.ialignSupport = .only16 → s.ialign = .i16) :
    (readSepc s).toNat % s.ialign.bytes = 0 := by
  cases ha : s.ialign with
  | i16 => rw [IAlign.bytes, mod_two_eq, getLsbD_readSepc_of_clear h0, Bool.toNat_false]
  | i32 =>
    have h1 : (readSepc s).getLsbD 1 = false := by
      cases hk : s.cfg.ialignSupport with
      | only32 => exact getLsbD_readSepc_of_clear (h32 hk)
      | only16 => exact absurd (ha.symm.trans (h16 hk)) (by decide)
      | both =>
        rw [getLsbD_readSepc]
        simp [sepcMasked, hk, ha]
    rw [IAlign.bytes, mod_four_eq, getLsbD_readSepc_of_clear h0, h1, Bool.toNat_false]

theorem inv_takeDraw (h : Inv s) : Inv (takeDraw s) := { h with }

theorem inv_setScounteren (h : Inv s) (v : BitVec 32) : Inv (setScounteren s v) :=
  { h with
    hardwired := by
      rw [setScounteren_scounteren, setScounteren_cfg, BitVec.and_assoc, BitVec.and_comm (~~~ _)]
      simp }

theorem inv_setSscratch (h : Inv s) (v : Word) : Inv (setSscratch s v) :=
  { h with sscratchFits := fit_fit _ _ }

theorem inv_setSepc (h : Inv s) {v : Word} (h0 : v.getLsbD 0 = false)
    (h1 : s.cfg.ialignSupport = .only32 → v.getLsbD 1 = false) : Inv (setSepc s v) := by
  have hbit0 : (setSepc s v).sepc.getLsbD 0 = false := getLsbD_fit_of_clear h0
  have hbit1 : s.cfg.ialignSupport = .only32 → (setSepc s v).sepc.getLsbD 1 = false :=
    fun hk => getLsbD_fit_of_clear (h1 hk)
  exact
    { h with
      sepcBit0 := hbit0
      only32 := fun hk => ⟨hbit1 hk, (h.only32 hk).2⟩
      sepcAligned := readSepc_aligned hbit0 hbit1 h.only16
      sepcFits := fit_fit _ _ }

/-- Storing again what `write_sepc` stored changes nothing. -/
theorem setSepc_writeSepc_sepc (s : State) (v : Word) :
    setSepc s (writeSepc s v).sepc = writeSepc s v :=
  congrArg (fun w => { s with sepc := w }) (fit_fit _ _)

theorem inv_writeSepc (h : Inv s) (v : Word) : Inv (writeSepc s v) :=
  setSepc_writeSepc_sepc s v ▸
    inv_setSepc h (writeSepc_bit0 s v) (fun hk => writeSepc_bit1_only32 s hk v)

theorem inv_writeReg (h : Inv s) (n : BitVec 5) (v : Word) : Inv (writeReg s n v) := by
  have hregs : ∀ m, Fits s.cfg.sxlen (readReg (writeReg s n v) m) := by
    intro m
    rw [readReg_writeReg]
    split
    · exact fit_fit _ _
    · exact h.regsFit m
  unfold writeReg at hregs ⊢
  split
  · exact h
  · next hn =>
    rw [dif_neg hn] at hregs
    exact { h with regsFit := hregs }

/-- `pc + 4` modulo 2^XLEN is aligned when `pc` is: 4 and 2^XLEN are multiples of either alignment. -/
theorem inv_advancePc (h : Inv s) : Inv (advancePc s) :=
  { h with
    pcAligned := by
      have hpc := h.pcAligned
      simp only [advancePc_pc, advancePc_ialign, toNat_fit, BitVec.toNat_add, BitVec.toNat_ofNat]
      cases ha : s.ialign <;> cases hx : s.cfg.sxlen <;>
        simp only [ha, IAlign.bytes, Xlen.bits] at hpc ⊢ <;> omega
    pcFits := fit_fit _ _ }

/-- The return goes where `sepc` reads as, which is aligned (10_state.md R57 (e)). -/
theorem inv_returnFromTrap (h : Inv s) : Inv (returnFromTrap s) :=
  { h with
    pcAligned := by
      rw [returnFromTrap_pc, fits_readSepc s h.sepcFits]
      exact h.sepcAligned
    pcFits := fit_fit _ _ }

theorem inv_csrRead (h : Inv s) (r : Csr) : Inv (csrRead s r).2 := by
  rw [csrRead_state]
  split
  · exact inv_takeDraw h
  · exact h

theorem inv_csrWrite (h : Inv s) (r : Csr) (v : Word) : Inv (csrWrite s r v) := by
  cases r with
  | scounteren => exact inv_setScounteren h _
  | sscratch => exact inv_setSscratch h v
  | sepc => exact inv_writeSepc h v
  | counter n => exact h
  | counterHigh n => exact h

/-- The hidden bit is open only while bit 1 is masked, so never under `only32` (40_csr_access.md R113). -/
theorem not_only32_of_hiddenBitOpen {m : Word} (h : hiddenBitOpen s m = true) :
    s.cfg.ialignSupport ≠ .only32 := by
  intro hk
  simp [hiddenBitOpen, sepcMasked, hk] at h

theorem inv_csrMask (h : Inv s) (op : MaskOp) (r : Csr) (m : Word) : Inv (csrMask op s r m) := by
  cases r with
  | sepc =>
    have hw := inv_writeSepc h (maskApply op (readSepc s) m)
    rw [csrMask_sepc]
    split
    · next hopen =>
      have hboth : s.cfg.ialignSupport ≠ .only32 := not_only32_of_hiddenBitOpen hopen
      refine inv_takeDraw (inv_setSepc hw ?_ fun hk => absurd hk hboth)
      rw [getLsbD_setBit _ _ _ _ (by omega)]
      exact hw.sepcBit0
    · exact hw
  | scounteren => exact inv_setScounteren h _
  | sscratch => exact inv_setSscratch h _
  | counter n => exact h
  | counterHigh n => exact h

theorem inv_swapCsr (h : Inv s) (rd : BitVec 5) (v : Word) (r : Csr) : Inv (swapCsr s rd v r) := by
  unfold swapCsr
  split
  · exact inv_advancePc (inv_csrWrite h r v)
  · exact inv_advancePc (inv_writeReg (inv_csrWrite (inv_csrRead h r) r v) rd _)

theorem inv_maskCsr (h : Inv s) (op : MaskOp) (rd : BitVec 5) (w : Bool) (m : Word) (r : Csr) :
    Inv (maskCsr op s rd w m r) := by
  refine inv_advancePc (inv_writeReg ?_ rd _)
  split
  · exact inv_csrMask (inv_csrRead h r) op r m
  · exact inv_csrRead h r

/-- Every instruction keeps the launch invariant. -/
theorem inv_exec {i : Instr} {t : State} (h : Inv s) (hexec : exec i s = .next t) : Inv t := by
  obtain ⟨-, -, rfl⟩ | ⟨rd, c, r, v, -, -, -, -, ⟨-, rfl⟩ | ⟨op, rfl⟩⟩ := exec_next_cases hexec
  · exact inv_returnFromTrap h
  · exact inv_swapCsr h rd v r
  · exact inv_maskCsr h op rd _ v r

end Invariant

/-- Settles O37: a step is the execution of the instruction fetched, and every instruction keeps the
invariant. -/
theorem everyStepKeepsTheLaunchInvariant : Obligations.EveryStepKeepsTheLaunchInvariant := by
  intro s t h hstep
  obtain ⟨i, -, hexec⟩ := step_next_cases hstep
  exact inv_exec h hexec

/-- Settles O38: each part of the invariant is a fact about the fixed reset values. -/
theorem resetMeetsTheLaunchInvariant : Obligations.ResetMeetsTheLaunchInvariant where
  hardwired := rfl
  sepcBit0 := rfl
  only32 := by decide
  only16 := by decide
  sepcAligned := by decide
  zeroReg := rfl
  pcAligned := by decide
  pcFits := rfl
  sscratchFits := rfl
  sepcFits := rfl
  regsFit := by decide
  programOk := reset_programWf

end Sys2Proof.Proofs

namespace Sys2Proof.Proofs

open Sys2Proof.Machine Sys2Proof.Laws Sys2Proof.Safety Sys2Proof.Claims

/-! ### The six CSR instructions as one access (40_csr_access.md R100, R103 to R108) -/

/-- What an instruction does to the CSR its number names once the access check lets it through; SRET
accesses none. -/
def csrEffect (s : State) : Instr → Csr → State
  | .csrrw rd _ rs1 => swapCsr s rd (readReg s rs1)
  | .csrrs rd _ rs1 => maskCsr .set s rd (rs1 != 0#5) (readReg s rs1)
  | .csrrc rd _ rs1 => maskCsr .clear s rd (rs1 != 0#5) (readReg s rs1)
  | .csrrwi rd _ uimm => swapCsr s rd (zextUimm uimm)
  | .csrrsi rd _ uimm => maskCsr .set s rd (uimm != 0#5) (zextUimm uimm)
  | .csrrci rd _ uimm => maskCsr .clear s rd (uimm != 0#5) (zextUimm uimm)
  | .sret => fun _ => s

section Access

variable {i : Instr} {rd : BitVec 5} {c : BitVec 12} {r : Csr} {s t : State}

/-- An instruction that names a CSR number is one access to it. -/
theorem exec_eq_csrAccess (hc : i.csrField = some c) (s : State) :
    exec i s = csrAccess s c i.writesCsr (csrEffect s i) := by
  cases i <;> cases hc <;> rfl

/-- SRET is the one instruction that names no CSR. -/
theorem eq_sret_of_csrField_none (h : i.csrField = none) : i = .sret := by
  cases i with
  | sret => rfl
  | _ => cases h

theorem exec_permitted (hc : i.csrField = some c) (hr : csrOfNumber s.cfg.sxlen c = some r)
    (hd : csrDenied s c r i.writesCsr = false) : exec i s = .next (csrEffect s i r) := by
  rw [exec_eq_csrAccess hc]
  exact (csrAccess_next_iff _ _ _ _ _).mpr ⟨r, hr, hd, rfl⟩

theorem exec_denied (hc : i.csrField = some c) (hr : csrOfNumber s.cfg.sxlen c = some r)
    (hd : csrDenied s c r i.writesCsr = true) : exec i s = trap s := by
  rw [exec_eq_csrAccess hc]
  exact (csrAccess_fault_iff _ _ _ _ _).mpr ⟨rfl, r, hr, hd⟩

/-! ### Who may access what -/

/-- A supervisor register is denied to U-mode, and to no other mode whatever the access does
(40_csr_access.md R114). -/
theorem csrDenied_supervisor (hn : SupervisorNumber c) (hr : csrOfNumber s.cfg.sxlen c = some r)
    (w : Bool) : csrDenied s c r w = (s.mode == .U) := by
  obtain ⟨hrank, hrw, hgate⟩ :
      csrLowestRank c = 1 ∧ csrReadOnly c = false ∧ gateBit r = none := by
    rcases hn with rfl | rfl | rfl <;> cases hr <;> decide
  simp only [csrDenied, modeTooLow, writesReadOnly, userGateClosed, machineGateClosed, hrank, hrw,
    hgate]
  cases s.mode <;> simp [rank]

theorem exec_supervisor_next (hc : i.csrField = some c) (hn : SupervisorNumber c)
    (hr : csrOfNumber s.cfg.sxlen c = some r) (hm : s.mode ≠ .U) :
    exec i s = .next (csrEffect s i r) :=
  exec_permitted hc hr (by rw [csrDenied_supervisor hn hr]; simpa using hm)

theorem exec_supervisor_trap (hc : i.csrField = some c) (hn : SupervisorNumber c)
    (hr : csrOfNumber s.cfg.sxlen c = some r) (hm : s.mode = .U) : exec i s = trap s :=
  exec_denied hc hr (by rw [csrDenied_supervisor hn hr]; simpa using hm)

/-- A counter number names a counter gated by its low five bits (30_encoding.md R84, R85). -/
theorem counterNumber_names {x : Xlen} (h : CounterNumber x c) :
    ∃ r, csrOfNumber x c = some r ∧ gateBit r = some (c.extractLsb' 0 5) := by
  rcases h with hlow | ⟨rfl, hhigh⟩
  · exact ⟨_, csrOfNumber_low x c hlow, rfl⟩
  · exact ⟨_, csrOfNumber_high c hhigh, rfl⟩

/-- In U-mode a clear `scounteren` bit denies every access to its counter (40_csr_access.md R109). -/
theorem exec_counter_trap (hc : i.csrField = some c) (hn : CounterNumber s.cfg.sxlen c)
    (hm : s.mode = .U) (hbit : s.scounteren.getLsbD (c.toNat % 32) = false) : exec i s = trap s := by
  obtain ⟨r, hr, hgate⟩ := counterNumber_names hn
  have huser : userGateClosed s r = true := by
    rw [← gate_toNat] at hbit
    simp only [userGateClosed, hgate, hm, counterEnable, hbit]
    rfl
  exact exec_denied hc hr (by simp [csrDenied, huser])

/-! ### What an instruction leaves in `rd` and in the CSRs -/

theorem readReg_swapCsr_same (s : State) (hrd : rd ≠ 0#5) (v : Word) (r : Csr) :
    readReg (swapCsr s rd v r) rd = fit s.cfg.sxlen (csrRead s r).1 := by
  rw [swapCsr, if_neg hrd, readReg_advancePc, readReg_writeReg_same _ hrd]
  cases r <;> rfl

theorem readReg_maskCsr_same (s : State) (op : MaskOp) (hrd : rd ≠ 0#5) (w : Bool) (m : Word)
    (r : Csr) : readReg (maskCsr op s rd w m r) rd = fit s.cfg.sxlen (csrRead s r).1 := by
  have hcfg : (maskCsr op s rd w m r).cfg = s.cfg := (maskCsr_frame s op rd w m r).1
  rw [maskCsr, advancePc_cfg, writeReg_cfg] at hcfg
  rw [maskCsr, readReg_advancePc, readReg_writeReg_same _ hrd, hcfg]

/-- Every CSR instruction puts the value read in `rd`. -/
theorem exec_rd (hexec : exec i s = .next t) (hrd : i.rdField = some rd) (hc : i.csrField = some c)
    (hr : csrOfNumber s.cfg.sxlen c = some r) (h0 : rd ≠ 0#5) :
    readReg t rd = fit s.cfg.sxlen (csrRead s r).1 := by
  obtain ⟨rfl, -, -⟩ | ⟨rd', c', r', v, hrd', hc', hr', -, hshape⟩ := exec_next_cases hexec
  · cases hc
  · obtain rfl : rd' = rd := Option.some.inj (hrd'.symm.trans hrd)
    obtain rfl : c' = c := Option.some.inj (hc'.symm.trans hc)
    obtain rfl : r' = r := Option.some.inj (hr'.symm.trans hr)
    obtain ⟨-, rfl⟩ | ⟨op, rfl⟩ := hshape
    · exact readReg_swapCsr_same s h0 v r'
    · exact readReg_maskCsr_same s op h0 _ v r'

/-- A bit that is zero in the value read is zero in `rd` after, also when `rd` is x0. -/
theorem exec_rd_clear (hexec : exec i s = .next t) (hrd : i.rdField = some rd)
    (hc : i.csrField = some c) (hr : csrOfNumber s.cfg.sxlen c = some r) {n : Nat}
    (hn : (csrRead s r).1.getLsbD n = false) : (readReg t rd).getLsbD n = false := by
  by_cases h0 : rd = 0#5
  · rw [h0, readReg_zero, BitVec.getLsbD_zero]
  · rw [exec_rd hexec hrd hc hr h0]
    exact getLsbD_fit_of_clear hn

/-- A read without a write of a supervisor register completes outside U-mode with the value it reads as. -/
theorem exec_csrr (hn : SupervisorNumber c) (hr : csrOfNumber s.cfg.sxlen c = some r)
    (hm : s.mode ≠ .U) (h0 : rd ≠ 0#5) :
    ∃ t, exec (.csrrs rd c 0#5) s = .next t ∧ readReg t rd = fit s.cfg.sxlen (csrRead s r).1 := by
  have hexec := exec_supervisor_next (i := .csrrs rd c 0#5) rfl hn hr hm
  exact ⟨_, hexec, exec_rd hexec rfl rfl hr h0⟩

@[simp] theorem swapCsr_scounteren (s : State) (rd : BitVec 5) (v : Word) :
    (swapCsr s rd v .scounteren).scounteren = v.setWidth 32 &&& ~~~ s.cfg.scounterenHz := by
  unfold swapCsr
  split <;> simp [csrRead, csrWrite]

@[simp] theorem swapCsr_sscratch (s : State) (rd : BitVec 5) (v : Word) :
    (swapCsr s rd v .sscratch).sscratch = fit s.cfg.sxlen v := by
  unfold swapCsr
  split <;> simp [csrRead, csrWrite]

@[simp] theorem swapCsr_sepc (s : State) (rd : BitVec 5) (v : Word) :
    (swapCsr s rd v .sepc).sepc = (writeSepc s v).sepc := by
  unfold swapCsr
  split <;> simp [csrRead, csrWrite]

/-- The frame of a CSR instruction: the privilege, every register but `rd`, and its `pc`. -/
theorem exec_csr_frame (hexec : exec i s = .next t) (hrd : i.rdField = some rd) :
    t.mode = s.mode ∧ t.spp = s.spp ∧ t.pc = fit s.cfg.sxlen (s.pc + 4#64) ∧
      ∀ n, n ≠ rd → readReg t n = readReg s n := by
  obtain ⟨rfl, -, -⟩ | ⟨rd', c, r, v, hrd', -, -, -, hshape⟩ := exec_next_cases hexec
  · cases hrd
  · obtain rfl : rd' = rd := Option.some.inj (hrd'.symm.trans hrd)
    obtain ⟨-, rfl⟩ | ⟨op, rfl⟩ := hshape
    · obtain ⟨-, -, -, hmode, hspp, hpc, hregs, -⟩ := swapCsr_frame s rd' v r
      exact ⟨hmode, hspp, hpc, hregs⟩
    · obtain ⟨-, -, -, hmode, hspp, hpc, hregs, -⟩ := maskCsr_frame s op rd' i.writesCsr v r
      exact ⟨hmode, hspp, hpc, hregs⟩

/-- Each of the three registers is changed only by a writing form that names it
(40_csr_access.md R103 to R108). -/
theorem exec_csrs_kept (hexec : exec i s = .next t) :
    (¬ (i.csrField = some 0x106#12 ∧ i.writesCsr = true) → t.scounteren = s.scounteren) ∧
    (¬ (i.csrField = some 0x140#12 ∧ i.writesCsr = true) → t.sscratch = s.sscratch) ∧
    (¬ (i.csrField = some 0x141#12 ∧ i.writesCsr = true) → t.sepc = s.sepc) := by
  obtain ⟨-, -, rfl⟩ | ⟨rd, c, r, v, -, hc, hr, -, hshape⟩ := exec_next_cases hexec
  · simp
  · have hother : ∀ r₀, ¬ (i.csrField = some (csrNumber r₀) ∧ i.writesCsr = true) →
        r ≠ r₀ ∨ i.writesCsr = false := by
      rintro r₀ hno
      by_cases hw : i.writesCsr = true
      · exact .inl fun e => hno ⟨by rw [hc, ← e, csrNumber_of_csrOfNumber hr], hw⟩
      · exact .inr (Bool.eq_false_iff.mpr hw)
    obtain ⟨hw, rfl⟩ | ⟨op, rfl⟩ := hshape
    · obtain ⟨-, -, -, -, -, -, -, h1, h2, h3⟩ := swapCsr_frame s rd v r
      have hne : ∀ r₀, ¬ (i.csrField = some (csrNumber r₀) ∧ i.writesCsr = true) → r ≠ r₀ :=
        fun r₀ hno => (hother r₀ hno).resolve_right (by simp [hw])
      exact ⟨fun hno => h1 (hne _ hno), fun hno => h2 (hne _ hno), fun hno => h3 (hne _ hno)⟩
    · obtain ⟨-, -, -, -, -, -, -, h1, h2, h3⟩ := maskCsr_frame s op rd i.writesCsr v r
      exact ⟨fun hno => h1 (hother _ hno), fun hno => h2 (hother _ hno),
        fun hno => h3 (hother _ hno)⟩

/-- SRET goes through outside U-mode only, and is then the return from a trap. -/
theorem exec_sret_next (hexec : exec .sret s = .next t) : s.mode ≠ .U ∧ t = returnFromTrap s := by
  obtain ⟨hd, rfl⟩ := (execSret_next_iff s t).mp hexec
  refine ⟨fun hm => ?_, rfl⟩
  simp [sretDenied, hm] at hd

/-- SRET goes where `sepc` reads as (41_sret.md R130). -/
theorem exec_sret_pc (h : Inv s) (hexec : exec .sret s = .next t) : t.pc = readSepc s := by
  obtain ⟨-, rfl⟩ := exec_sret_next hexec
  rw [returnFromTrap_pc, fits_readSepc s h.sepcFits]

end Access

/-! ### Whole-machine rules -/

/-- Settles O40: a CSR instruction keeps the privilege; SRET takes its mode from `spp`, which cannot hold
M. -/
theorem onlySretChangesTheMode : Obligations.OnlySretChangesTheMode := by
  intro i s t hexec
  obtain ⟨rfl, -, rfl⟩ | ⟨rd, c, r, v, hrd, -⟩ := exec_next_cases hexec
  · refine ⟨fun hne => absurd rfl hne, fun _ => ⟨?_, rfl⟩⟩
    rw [returnFromTrap_mode]
    cases s.spp <;> decide
  · obtain ⟨hmode, hspp, -⟩ := exec_csr_frame hexec hrd
    refine ⟨fun _ => ⟨hmode, hspp⟩, ?_⟩
    rintro rfl
    cases hrd

/-- Settles O42: every register but `rd` is kept, and x0 has no storage. -/
theorem zeroRegisterDiscardsWrites : Obligations.ZeroRegisterDiscardsWrites := by
  intro i s t hexec
  refine ⟨readReg_zero t, fun hrd n => ?_⟩
  rcases hrd with hrd | hrd
  · by_cases hn : n = 0#5
    · rw [hn, readReg_zero, readReg_zero]
    · obtain ⟨-, -, -, hregs⟩ := exec_csr_frame hexec hrd
      exact hregs n hn
  · obtain ⟨-, -, rfl⟩ | ⟨rd, c, r, v, hrd', -⟩ := exec_next_cases hexec
    · exact readReg_returnFromTrap s n
    · cases hrd'.symm.trans hrd

/-! ### `scounteren` -/

/-- Settles O12: `scounteren` is listed at every XLEN, and the access check depends on the mode alone. -/
theorem scounterenIsImplemented : Obligations.ScounterenIsImplemented := by
  intro i s hc
  refine ⟨fun q hq => ?_, fun hm => ⟨_, exec_supervisor_next hc (.inl rfl) rfl hm⟩⟩
  by_cases hm : s.mode = .U
  · cases hq.symm.trans (exec_supervisor_trap hc (.inl rfl) rfl hm)
  · cases hq.symm.trans (exec_supervisor_next hc (.inl rfl) rfl hm)

/-- Settles O25: a write stores the low 32 bits less the hardwired ones, and a 32-bit value fits XLEN. -/
theorem scounterenStoresWhatIsNotHardwired : Obligations.ScounterenStoresWhatIsNotHardwired := by
  intro s rs1
  refine ⟨exec_supervisor_trap rfl (.inl rfl) rfl, fun hm => ⟨?_, ?_⟩⟩
  · exact ⟨_, exec_supervisor_next rfl (.inl rfl) rfl hm, swapCsr_scounteren s _ _⟩
  · intro u rd _ hmu hrd hu
    obtain ⟨v, hexec, hval⟩ := exec_csrr (.inl rfl) rfl hmu hrd
    exact ⟨v, hexec, by rw [hval, ← hu]; exact fits_setWidth32 _ _⟩

/-- A hardwired bit of `scounteren` is 0 in every launch-invariant state (10_state.md R57 (a)). -/
theorem scounteren_hardwired_clear {s : State} (h : Inv s) {n : Nat}
    (hz : s.cfg.scounterenHz.getLsbD n = true) : s.scounteren.getLsbD n = false := by
  have hbit := congrArg (BitVec.getLsbD · n) h.hardwired
  simpa only [BitVec.getLsbD_and, hz, Bool.and_true, BitVec.getLsbD_zero] using hbit

/-- Settles O26: the bit is 0 before and after by the invariant, so every read returns 0 in it and its gate
is closed. -/
theorem hardwiredBitsStayZero : Obligations.HardwiredBitsStayZero := by
  intro s n i h hn hz
  have hclear := scounteren_hardwired_clear h hz
  refine ⟨hclear, fun t hexec => ?_, fun t rd hc hrd hexec => ?_, ?_⟩
  · obtain ⟨hcfg, -, -⟩ := exec_constant hexec
    exact scounteren_hardwired_clear (inv_exec h hexec) (hcfg ▸ hz)
  · refine exec_rd_clear hexec hrd hc rfl ?_
    rw [csrRead, BitVec.getLsbD_setWidth, hclear, Bool.and_false]
  · rintro c hc hcounter rfl hm
    exact exec_counter_trap hc hcounter hm hclear

/-! ### `sscratch` -/

/-- Settles O27: what is written and what is held are XLEN-bit values, so neither loses a bit. -/
theorem sscratchHoldsTheLastValueWritten : Obligations.SscratchHoldsTheLastValueWritten := by
  intro s rs1 h
  refine ⟨exec_supervisor_trap rfl (.inr (.inl rfl)) rfl, fun hm => ?_, fun rd hrd hm => ?_⟩
  · refine ⟨_, exec_supervisor_next rfl (.inr (.inl rfl)) rfl hm, ?_⟩
    exact (swapCsr_sscratch s _ _).trans (h.regsFit rs1)
  · obtain ⟨v, hexec, hval⟩ := exec_csrr (.inr (.inl rfl)) rfl hm hrd
    exact ⟨v, hexec, hval.trans h.sscratchFits⟩

/-- One swap of a register with `sscratch` (10_state.md R33): it completes, exchanges the two and keeps the
other two CSRs. -/
theorem exec_swap_sscratch {s : State} {a : BitVec 5} (h : Inv s) (hm : s.mode ≠ .U) (ha : a ≠ 0#5) :
    ∃ t, exec (.csrrw a 0x140#12 a) s = .next t ∧ readReg t a = s.sscratch ∧
      t.sscratch = readReg s a ∧ t.scounteren = s.scounteren ∧ t.sepc = s.sepc := by
  have hexec := exec_supervisor_next (i := .csrrw a 0x140#12 a) rfl (.inr (.inl rfl)) rfl hm
  obtain ⟨hscounteren, -, hsepc⟩ := exec_csrs_kept hexec
  exact ⟨_, hexec, (exec_rd hexec rfl rfl rfl ha).trans h.sscratchFits,
    (swapCsr_sscratch s a _).trans (h.regsFit a), hscounteren (by simp [Instr.csrField]),
    hsepc (by simp [Instr.csrField])⟩

/-- Settles O29: the swap twice, each time with everything but the register and `sscratch` kept. -/
theorem sscratchSwapTwiceRestores : Obligations.SscratchSwapTwiceRestores := by
  intro s a h hm ha
  obtain ⟨t, hst, hta, htscratch, htcounteren, htsepc⟩ := exec_swap_sscratch h hm ha
  obtain ⟨htmode, -, htpc, htregs⟩ := exec_csr_frame hst rfl
  obtain ⟨htcfg, -, -⟩ := exec_constant hst
  obtain ⟨u, htu, hua, huscratch, hucounteren, husepc⟩ :=
    exec_swap_sscratch (inv_exec h hst) (htmode ▸ hm) ha
  obtain ⟨-, -, hupc, huregs⟩ := exec_csr_frame htu rfl
  refine ⟨t, u, hst, htu, hta, htscratch, fun n => ?_,
    ⟨hucounteren.trans htcounteren, huscratch.trans hta, husepc.trans htsepc⟩, ?_⟩
  · by_cases hn : n = a
    · rw [hn, hua, htscratch]
    · rw [huregs n hn, htregs n hn]
  · rw [hupc, htpc, htcfg]
    simp only [toNat_fit, BitVec.toNat_add, BitVec.toNat_ofNat]
    cases s.cfg.sxlen <;> simp only [Xlen.bits] <;> omega

section SscratchUnused

variable (s : State) (v : Word) {r : Csr}

theorem writeReg_with_sscratch (n : BitVec 5) (w : Word) :
    writeReg { s with sscratch := v } n w = { writeReg s n w with sscratch := v } := by
  unfold writeReg
  split <;> rfl

theorem csrRead_with_sscratch (hr : r ≠ .sscratch) :
    csrRead { s with sscratch := v } r =
      ((csrRead s r).1, { (csrRead s r).2 with sscratch := v }) := by
  cases r with
  | sscratch => exact absurd rfl hr
  | _ => rfl

theorem csrWrite_with_sscratch (hr : r ≠ .sscratch) (w : Word) :
    csrWrite { s with sscratch := v } r w = { csrWrite s r w with sscratch := v } := by
  cases r with
  | sscratch => exact absurd rfl hr
  | _ => rfl

theorem csrMask_with_sscratch (hr : r ≠ .sscratch) (op : MaskOp) (m : Word) :
    csrMask op { s with sscratch := v } r m = { csrMask op s r m with sscratch := v } := by
  cases r with
  | sscratch => exact absurd rfl hr
  | sepc =>
    have hopen : hiddenBitOpen { s with sscratch := v } m = hiddenBitOpen s m := rfl
    rw [csrMask_sepc, csrMask_sepc, hopen]
    split <;> rfl
  | _ => rfl

theorem swapCsr_with_sscratch (hr : r ≠ .sscratch) (rd : BitVec 5) (w : Word) :
    swapCsr { s with sscratch := v } rd w r = { swapCsr s rd w r with sscratch := v } := by
  unfold swapCsr
  rw [csrRead_with_sscratch s v hr]
  split
  · rw [csrWrite_with_sscratch s v hr]; rfl
  · dsimp only
    rw [csrWrite_with_sscratch _ v hr, writeReg_with_sscratch]; rfl

theorem maskCsr_with_sscratch (hr : r ≠ .sscratch) (op : MaskOp) (rd : BitVec 5) (b : Bool)
    (m : Word) :
    maskCsr op { s with sscratch := v } rd b m r =
      { maskCsr op s rd b m r with sscratch := v } := by
  unfold maskCsr
  rw [csrRead_with_sscratch s v hr]
  cases b
  · exact congrArg advancePc (writeReg_with_sscratch _ v rd _)
  · simp only [if_true]
    rw [csrMask_with_sscratch _ v hr, writeReg_with_sscratch]; rfl

/-- No effect on another CSR looks at `sscratch`; its sources are general registers and immediates. -/
theorem csrEffect_with_sscratch (hr : r ≠ .sscratch) (i : Instr) :
    csrEffect { s with sscratch := v } i r = { csrEffect s i r with sscratch := v } := by
  cases i with
  | csrrw rd c rs1 => exact swapCsr_with_sscratch s v hr rd _
  | csrrwi rd c uimm => exact swapCsr_with_sscratch s v hr rd _
  | sret => rfl
  | _ => exact maskCsr_with_sscratch s v hr _ _ _ _

end SscratchUnused

/-- Two accesses to one number with the same check end alike when their effects do. -/
theorem csrAccess_onNext {s s' : State} {c : BitVec 12} {w : Bool} {k k' : Csr → State}
    {g : State → State} (hcfg : s'.cfg = s.cfg) (hpc : s'.pc = s.pc)
    (hd : ∀ r, csrDenied s' c r w = csrDenied s c r w)
    (hk : ∀ r, csrOfNumber s.cfg.sxlen c = some r → k' r = g (k r)) :
    csrAccess s' c w k' = onNext g (csrAccess s c w k) := by
  unfold csrAccess raiseIllegal
  rw [hcfg]
  cases hr : csrOfNumber s.cfg.sxlen c with
  | none => rfl
  | some r =>
    simp only [hd, hpc]
    split
    · rfl
    · rw [hk r hr]; rfl

/-- Settles O28: no part of an instruction that names another CSR, or none, looks at `sscratch`. -/
theorem sscratchHasNoImplicitUse : Obligations.SscratchHasNoImplicitUse := by
  intro i s
  refine ⟨fun t hexec hne => ?_, fun hno v => ?_⟩
  · obtain ⟨-, hkept, -⟩ := exec_csrs_kept hexec
    exact by_contra fun hnot => hne (hkept hnot)
  · cases hc : i.csrField with
    | none =>
      obtain rfl := eq_sret_of_csrField_none hc
      have hd : sretDenied { s with sscratch := v } = sretDenied s := rfl
      show execSret _ = onNext _ (execSret s)
      unfold execSret
      rw [hd]
      split <;> rfl
    | some c =>
      rw [exec_eq_csrAccess hc, exec_eq_csrAccess hc]
      refine csrAccess_onNext rfl rfl (fun _ => rfl) fun r hr => csrEffect_with_sscratch s v ?_ i
      rintro rfl
      exact hno (by rw [hc, ← csrNumber_of_csrOfNumber hr]; rfl)

/-! ### `sepc` -/

section Sepc

variable {i : Instr} {s t : State}

/-- While `ialign` is 32 the value read of `sepc` has bit 1 clear, by the mask or by the stored bit
(10_state.md R37, R38). -/
theorem readSepc_bit1_of_i32 (h : Inv s) (ha : s.ialign = .i32) :
    (readSepc s).getLsbD 1 = false := by
  have hal := h.sepcAligned
  rw [ha, IAlign.bytes, mod_four_eq] at hal
  exact Bool.toNat_eq_zero.mp (by omega)

/-- While `ialign` is 16 `sepc` reads as it is stored. -/
theorem readSepc_of_i16 (ha : s.ialign = .i16) : readSepc s = s.sepc := by
  simp [readSepc, sepcMasked, ha]

/-- Bit 1 of what `sepc` reads as, for each `ialign` (10_state.md R38). -/
theorem readSepc_bit1 (h : Inv s) :
    (s.ialign = .i32 → (readSepc s).getLsbD 1 = false) ∧
      (s.ialign = .i16 → (readSepc s).getLsbD 1 = s.sepc.getLsbD 1) :=
  ⟨readSepc_bit1_of_i32 h, fun ha => by rw [readSepc_of_i16 ha]⟩

/-- What any CSR instruction on `sepc` puts in `rd`. -/
theorem exec_rd_sepc {rd : BitVec 5} (h : Inv s) (hexec : exec i s = .next t)
    (hrd : i.rdField = some rd) (hc : i.csrField = some 0x141#12) (h0 : rd ≠ 0#5) :
    readReg t rd = readSepc s :=
  (exec_rd hexec hrd hc rfl h0).trans (fits_readSepc s h.sepcFits)

/-- A clear bit of the stored `sepc` is clear in every value read, explicitly or by SRET. -/
theorem exec_sepc_reads_clear (h : Inv s) (hexec : exec i s = .next t) {n : Nat}
    (hn : s.sepc.getLsbD n = false) :
    (∀ rd, i.csrField = some 0x141#12 → i.rdField = some rd → (readReg t rd).getLsbD n = false) ∧
      (i = .sret → t.pc.getLsbD n = false) := by
  refine ⟨fun rd hc hrd => ?_, ?_⟩
  · exact exec_rd_clear hexec hrd hc rfl (getLsbD_readSepc_of_clear hn)
  · rintro rfl
    rw [exec_sret_pc h hexec]
    exact getLsbD_readSepc_of_clear hn

/-- An explicit read of `sepc` completes outside U-mode with the value it reads as. -/
theorem exec_csrr_sepc {rd : BitVec 5} (hfits : Fits s.cfg.sxlen s.sepc) (hm : s.mode ≠ .U)
    (h0 : rd ≠ 0#5) :
    ∃ t, exec (.csrrs rd 0x141#12 0#5) s = .next t ∧ readReg t rd = readSepc s := by
  obtain ⟨t, hexec, hval⟩ := exec_csrr (.inr (.inr rfl)) rfl hm h0
  exact ⟨t, hexec, hval.trans (fits_readSepc s hfits)⟩

/-- CSRRW to `sepc` completes outside U-mode and stores its source. -/
theorem exec_csrrw_sepc (hm : s.mode ≠ .U) (rd rs1 : BitVec 5) :
    ∃ t, exec (.csrrw rd 0x141#12 rs1) s = .next t ∧
      t.sepc = (writeSepc s (readReg s rs1)).sepc :=
  ⟨_, exec_supervisor_next rfl (.inr (.inr rfl)) rfl hm, swapCsr_sepc s rd _⟩

/-- CSRRWI to `sepc` completes outside U-mode and stores its immediate. -/
theorem exec_csrrwi_sepc (hm : s.mode ≠ .U) (rd uimm : BitVec 5) :
    ∃ t, exec (.csrrwi rd 0x141#12 uimm) s = .next t ∧
      t.sepc = (writeSepc s (zextUimm uimm)).sepc :=
  ⟨_, exec_supervisor_next rfl (.inr (.inr rfl)) rfl hm, swapCsr_sepc s rd _⟩

/-- Bits 1:0 of the stored `sepc` under `only32` (10_state.md R57 (b), (c)). -/
theorem sepc_low_clear_of_only32 (h : Inv s) (hk : s.cfg.ialignSupport = .only32) {n : Nat}
    (hn : n < 2) : s.sepc.getLsbD n = false := by
  obtain rfl | rfl : n = 0 ∨ n = 1 := by omega
  · exact h.sepcBit0
  · exact (h.only32 hk).1

/-- From bit 2 up a write of `sepc` stores the legalised value, cut to XLEN bits (10_state.md R43). -/
theorem getLsbD_writeSepc_high (s : State) (v : Word) {n : Nat} (h2 : 2 ≤ n) :
    (writeSepc s v).sepc.getLsbD n = (fit s.cfg.sxlen (sepcLegalize s.cfg v)).getLsbD n := by
  have h0 : n ≠ 0 := by omega
  have h1 : n ≠ 1 := by omega
  rw [getLsbD_writeSepc, getLsbD_fit]
  simp [h0, h1]

end Sepc

/-- Settles O30: bit 0 is stored 0 by the invariant, before the instruction and after it. -/
theorem sepcBit0IsAlwaysZero : Obligations.SepcBit0IsAlwaysZero := by
  intro i s t h hexec
  exact ⟨(inv_exec h hexec).sepcBit0, exec_sepc_reads_clear h hexec h.sepcBit0⟩

/-- Settles O31: under `only32` bits 1:0 are stored 0 by the invariant, before the instruction and after
it. -/
theorem sepcLowBitsAreZeroUnderOnly32 : Obligations.SepcLowBitsAreZeroUnderOnly32 := by
  intro i s t n h hk hn hexec
  obtain ⟨hcfg, -, -⟩ := exec_constant hexec
  exact ⟨sepc_low_clear_of_only32 (inv_exec h hexec) (by rw [hcfg, hk]) hn,
    exec_sepc_reads_clear h hexec (sepc_low_clear_of_only32 h hk hn)⟩

/-- Settles O32: both reads return what `sepc` reads as, whose bit 1 follows `ialign`. -/
theorem sepcBit1IsMaskedWhileIalignIs32 : Obligations.SepcBit1IsMaskedWhileIalignIs32 := by
  intro i rd s t h _ hexec
  refine ⟨fun hc hrd h0 => ?_, ?_⟩
  · rw [exec_rd_sepc h hexec hrd hc h0]
    exact readSepc_bit1 h
  · rintro rfl
    rw [exec_sret_pc h hexec]
    exact readSepc_bit1 h

/-- Settles O33: SRET and an explicit read both return what `sepc` reads as. -/
theorem sretReadsSepcMasked : Obligations.SretReadsSepcMasked := by
  intro s t h hexec
  obtain ⟨hm, rfl⟩ := exec_sret_next hexec
  have hpc := exec_sret_pc h hexec
  refine ⟨fun rd hrd => ?_, ?_, fun ha => ?_, rfl⟩
  · obtain ⟨u, hread, hval⟩ := exec_csrr_sepc h.sepcFits hm hrd
    exact ⟨u, hread, hpc.trans hval.symm⟩
  · rw [hpc]
    exact getLsbD_readSepc_of_clear h.sepcBit0
  · rw [hpc]
    exact readSepc_bit1_of_i32 h ha

/-- Settles O34: outside `only32` a write stores bit 1 whatever `ialign` is, only a write of `sepc` changes
it, and at `ialign` 16 it reads as it is stored. -/
theorem maskedSepcBit1RemainsWritable : Obligations.MaskedSepcBit1RemainsWritable := by
  intro s h hk
  have hnot32 : s.cfg.ialignSupport ≠ .only32 := by rw [hk]; decide
  refine ⟨fun hm rd rs1 => ?_, fun hm rd uimm => ?_, fun i t hexec => ?_, fun hm rd hrd => ?_⟩
  · obtain ⟨t, hexec, hsepc⟩ := exec_csrrw_sepc hm rd rs1
    exact ⟨t, hexec, by rw [hsepc, writeSepc_bit1 s hnot32]⟩
  · obtain ⟨t, hexec, hsepc⟩ := exec_csrrwi_sepc hm rd uimm
    refine ⟨t, hexec, ?_⟩
    rw [hsepc, writeSepc_bit1 s hnot32, zextUimm, BitVec.getLsbD_setWidth]
    rfl
  · obtain ⟨-, -, hkept⟩ := exec_csrs_kept hexec
    exact hkept
  · obtain ⟨u, hexec, hval⟩ :=
      exec_csrr_sepc (s := { s with ialign := .i16 }) h.sepcFits hm hrd
    exact ⟨u, hexec, by rw [hval, readSepc_of_i16 rfl]⟩

/-- Settles O35: under `only16` `ialign` is 16, so a write stores bit 1 and every read returns the stored
value. -/
theorem sepcBit1IsOrdinaryUnderOnly16 : Obligations.SepcBit1IsOrdinaryUnderOnly16 := by
  intro s h hk
  have hnot32 : s.cfg.ialignSupport ≠ .only32 := by rw [hk]; decide
  have hread : readSepc s = s.sepc := readSepc_of_i16 (h.only16 hk)
  refine ⟨fun hm rd rs1 => ?_, fun hm rd hrd => ?_, fun t hexec => ?_⟩
  · obtain ⟨t, hexec, hsepc⟩ := exec_csrrw_sepc hm rd rs1
    exact ⟨t, hexec, by rw [hsepc, writeSepc_bit0], by rw [hsepc, writeSepc_bit1 s hnot32]⟩
  · obtain ⟨u, hexec, hval⟩ := exec_csrr_sepc h.sepcFits hm hrd
    exact ⟨u, hexec, hval.trans hread⟩
  · exact (exec_sret_pc h hexec).trans hread

/-- Settles O36: each clause is a bit of what `write_sepc` stores; the registers hold XLEN-bit values, so
under the identity the cut to XLEN bits drops nothing. -/
theorem sepcWriteStoresTheOtherBits : Obligations.SepcWriteStoresTheOtherBits := by
  intro s rd rs1 h hm
  obtain ⟨t, hexec, hsepc⟩ := exec_csrrw_sepc hm rd rs1
  refine ⟨t, hexec, ?_⟩
  rw [hsepc]
  refine ⟨writeSepc_bit0 s _, fun hk => writeSepc_bit1_only32 s hk _,
    fun hk => writeSepc_bit1 s hk _, fun n h2 hn => ?_, fun hid n h2 => ?_⟩
  · rw [getLsbD_writeSepc_high s _ h2, getLsbD_fit, decide_eq_true hn, Bool.true_and]
  · have hvalue : sepcLegalize s.cfg (readReg s rs1) = readReg s rs1 := by
      rw [sepcLegalize, hid]
    rw [getLsbD_writeSepc_high s _ h2, hvalue, h.regsFit rs1]

end Sys2Proof.Proofs

namespace Sys2Proof.Proofs

open Sys2Proof.Machine Sys2Proof.Laws Sys2Proof.Claims

/-! ### Fetch and step (20_memory.md R62, R69; 30_encoding.md R87) -/

/-- The refusal of a word that does not decode, by its reason (30_encoding.md R87). -/
def rejectRefusal (w : BitVec 32) : DecodeReject → Refusal
  | .length => .length w
  | .opcode => .opcode w
  | .csr => .csr (w.extractLsb' 20 12)

section Fetch

variable {s : State} {w : BitVec 32} {i : Instr} {e : DecodeReject} {q : Refusal}

theorem programGet_of_not_word_aligned (p : Program) {a : Nat} (h : a % 4 ≠ 0) :
    programGet p a = none := if_neg h

theorem fetchInstr_misaligned (h : s.pc.toNat % s.ialign.bytes ≠ 0) :
    fetchInstr s = .error (.misalignedLaunch s.pc) := if_pos h

theorem fetchInstr_left (h : s.pc.toNat % s.ialign.bytes = 0)
    (hget : programGet s.program s.pc.toNat = none) : fetchInstr s = .error (.left s.pc) := by
  rw [fetchInstr, if_neg (not_not.mpr h), hget]

theorem fetchInstr_decoded (h : s.pc.toNat % s.ialign.bytes = 0)
    (hget : programGet s.program s.pc.toNat = some w) (hd : decode s.cfg.sxlen w = .ok i) :
    fetchInstr s = .ok i := by
  simp only [fetchInstr, if_neg (not_not.mpr h), hget, hd]

theorem fetchInstr_rejected (h : s.pc.toNat % s.ialign.bytes = 0)
    (hget : programGet s.program s.pc.toNat = some w) (hd : decode s.cfg.sxlen w = .error e) :
    fetchInstr s = .error (rejectRefusal w e) := by
  simp only [fetchInstr, if_neg (not_not.mpr h), hget, hd]
  cases e <;> rfl

theorem step_of_fetched (h : fetchInstr s = .ok i) : step s = exec i s := by
  rw [step, h]

theorem step_of_not_fetched (h : fetchInstr s = .error q) : step s = .refused q := by
  rw [step, h]

end Fetch

/-- Settles O6: the fetch answers the decoded instruction. -/
theorem stepRunsTheDecodedInstruction : Obligations.StepRunsTheDecodedInstruction :=
  fun _ _ _ hpc hget hd => step_of_fetched (fetchInstr_decoded hpc hget hd)

/-- Settles O7: each clause is one way in which the fetch answers no instruction. -/
theorem stepRefusals : Obligations.StepRefusals := by
  refine fun s => ⟨fun hpc => ?misaligned, fun hpc => ⟨fun h4 => ?offWord, fun hget => ?noWord,
    fun w hget => ⟨?length, ?opcode, ?csr⟩⟩⟩
  case misaligned => exact step_of_not_fetched (fetchInstr_misaligned hpc)
  case offWord =>
    exact step_of_not_fetched (fetchInstr_left hpc (programGet_of_not_word_aligned _ h4))
  case noWord => exact step_of_not_fetched (fetchInstr_left hpc hget)
  all_goals exact fun hd => step_of_not_fetched (fetchInstr_rejected hpc hget hd)

end Sys2Proof.Proofs

namespace Sys2Proof.Proofs

open Sys2Proof.Machine Sys2Proof.Laws Sys2Proof.Safety Sys2Proof.Claims

/-! ### What a CSR write governs (20_memory.md R71) -/

section Governs

variable {i : Instr} {rd : BitVec 5} {c : BitVec 12} {s t : State}

/-- In S-mode with M_TSR = 0 SRET goes through (41_sret.md R133). -/
theorem exec_sret_supervisor (hm : s.mode = .S) (htsr : s.cfg.mTsr = false) :
    exec .sret s = .next (returnFromTrap s) :=
  (execSret_next_iff s _).mpr ⟨by simp [sretDenied, hm, htsr], rfl⟩

/-- A CSR instruction keeps what lets SRET through, so a supervisor may return right after one. -/
theorem exec_sret_after_csr (hm : s.mode = .S) (htsr : s.cfg.mTsr = false)
    (hexec : exec i s = .next t) (hrd : i.rdField = some rd) :
    exec .sret t = .next (returnFromTrap t) := by
  obtain ⟨hmode, -⟩ := exec_csr_frame hexec hrd
  obtain ⟨hcfg, -⟩ := exec_constant hexec
  exact exec_sret_supervisor (hmode.trans hm) (by rw [hcfg, htsr])

/-- The number of a counter demands no mode (30_encoding.md R85). -/
theorem csrLowestRank_counter {x : Xlen} (h : CounterNumber x c) : csrLowestRank c = 0 := by
  rw [csrLowestRank_eq]
  rcases h with hlow | ⟨-, hhigh⟩ <;> omega

/-- A counter read is let through in every mode where the gate of machine level and the bit of `scounteren`
are both open (40_csr_access.md R100). -/
theorem exec_counter_read (hc : i.csrField = some c) (hw : i.writesCsr = false)
    (hn : CounterNumber s.cfg.sxlen c) (hbit : s.scounteren.getLsbD (c.toNat % 32) = true)
    (hgate : s.cfg.mCounterGate.getLsbD (c.toNat % 32) = true) : ∃ t, exec i s = .next t := by
  obtain ⟨r, hr, hgated⟩ := counterNumber_names hn
  have hrank : modeTooLow s c = false := by simp [modeTooLow, csrLowestRank_counter hn]
  have huser : userGateClosed s r = false := by
    simp [userGateClosed, hgated, counterEnable, hbit]
  have hmachine : machineGateClosed s r = false := by
    simp [machineGateClosed, hgated, machineGate, hgate]
  refine ⟨_, exec_permitted hc hr ?_⟩
  simp [csrDenied, hrank, writesReadOnly, hw, huser, hmachine]

/-- Every bit of `sepc` but bit 1 reads as it is stored (10_state.md R41). -/
theorem getLsbD_readSepc_of_ne_one (s : State) {n : Nat} (h : n ≠ 1) :
    (readSepc s).getLsbD n = s.sepc.getLsbD n := by
  rw [getLsbD_readSepc]
  simp [h]

end Governs

/-- Settles O44: the state that SRET leaves has the gate bits just written, and SRET goes where the `sepc`
just written reads as. -/
theorem csrWriteGovernsWhatFollows : Obligations.CsrWriteGovernsWhatFollows := by
  intro s rs1 h hm htsr
  have hnotU : s.mode ≠ .U := by rw [hm]; decide
  refine ⟨fun hspp rd c hn hgate => ?_, fun hid => ?_⟩
  · obtain ⟨-, hwrite⟩ := scounterenStoresWhatIsNotHardwired s rs1
    obtain ⟨⟨t, hst, hstored⟩, -⟩ := hwrite hnotU
    obtain ⟨-, htspp, -⟩ := exec_csr_frame hst rfl
    obtain ⟨htcfg, -⟩ := exec_constant hst
    have hmode : (returnFromTrap t).mode = .U := by rw [returnFromTrap_mode, htspp, hspp]; rfl
    have hcfg : (returnFromTrap t).cfg = s.cfg := htcfg
    rw [← hcfg] at hn hgate
    refine ⟨t, _, hst, exec_sret_after_csr hm htsr hst rfl, hmode, fun hset => ?_, fun hclear => ?_⟩
    · exact exec_counter_read rfl rfl hn (by rw [returnFromTrap_scounteren, hstored, hset]) hgate
    · exact exec_counter_trap rfl hn hmode (by rw [returnFromTrap_scounteren, hstored, hclear])
  · obtain ⟨t, hst, -, -, hbit1, -, hhigh⟩ := sepcWriteStoresTheOtherBits s 0#5 rs1 h hnotU
    have ht : Inv t := inv_exec h hst
    obtain ⟨-, -, halign⟩ := exec_constant hst
    obtain ⟨h32, h16⟩ := readSepc_bit1 ht
    have hsret := exec_sret_after_csr hm htsr hst rfl
    refine ⟨t, _, hst, hsret, ?_⟩
    rw [exec_sret_pc ht hsret]
    refine ⟨getLsbD_readSepc_of_clear ht.sepcBit0, fun ha => h32 (halign.trans ha), fun ha => ?_,
      fun n h2 => ?_⟩
    · have hnot32 : s.cfg.ialignSupport ≠ .only32 := fun hk => by
        cases ha.symm.trans (h.only32 hk).2
      rw [h16 (halign.trans ha), hbit1 hnot32]
    · rw [getLsbD_readSepc_of_ne_one t (by omega), hhigh hid n h2]

end Sys2Proof.Proofs

namespace Sys2Proof.Proofs

open Sys2Proof.Machine Sys2Proof.Laws Sys2Proof.Claims

/-! ### The listed CSR numbers (30_encoding.md R84, R87) -/

section Listed

variable {x : Xlen} {c : BitVec 12} {i : Instr}

/-- The number of a supervisor register names it, whatever the XLEN. -/
theorem csrOfNumber_supervisor_isSome (x : Xlen) (h : SupervisorNumber c) :
    (csrOfNumber x c).isSome = true := by
  rcases h with rfl | rfl | rfl <;> rfl

/-- The model's lookup finds exactly the numbers of the table. -/
theorem csrOfNumber_isSome_iff : (csrOfNumber x c).isSome = true ↔ ListedNumber x c := by
  constructor
  · intro h
    obtain ⟨r, hr⟩ := Option.isSome_iff_exists.mp h
    obtain ⟨hc, -⟩ | ⟨hc, -⟩ | ⟨hc, -⟩ | ⟨hlow, -⟩ | ⟨hx, hhigh, -⟩ := csrOfNumber_cases hr
    · exact .inl (.inl hc)
    · exact .inl (.inr (.inl hc))
    · exact .inl (.inr (.inr hc))
    · exact .inr (.inl hlow)
    · exact .inr (.inr ⟨hx, hhigh⟩)
  · rintro (hn | hn)
    · exact csrOfNumber_supervisor_isSome x hn
    · obtain ⟨r, hr, -⟩ := counterNumber_names hn
      exact Option.isSome_of_eq_some hr

theorem csrOfNumber_eq_none_iff : csrOfNumber x c = none ↔ ¬ ListedNumber x c := by
  rw [← csrOfNumber_isSome_iff, Bool.not_eq_true, Option.isSome_eq_false_iff,
    Option.isNone_iff_eq_none]

/-- An instruction that names a number is well formed exactly when the number is listed. -/
theorem wellFormed_iff (hc : i.csrField = some c) : wellFormed x i = true ↔ ListedNumber x c := by
  rw [wellFormed, csrListed, hc, csrOfNumber_isSome_iff]

end Listed

/-- Settles O8: an instruction that names a number is one access to it, and SRET is never refused. -/
theorem unlistedCsrNumberIsRefused : Obligations.UnlistedCsrNumberIsRefused := by
  intro i s q
  cases hc : i.csrField with
  | none =>
    rw [eq_sret_of_csrField_none hc]
    exact iff_of_false (execSret_not_refused s q) (by simp)
  | some c =>
    rw [exec_eq_csrAccess hc, csrAccess_refused_iff, csrOfNumber_eq_none_iff]
    simp

/-! ### The fields of a word as numbers, and the words with opcode SYSTEM (30_encoding.md R81, R83) -/

section Words

variable {x : Xlen} {w : BitVec 32} {i : Instr} {r : DecodeReject}
  {c : BitVec 12} {a d : BitVec 5} {f : BitVec 3}

/-- The test of the two low bits on numbers (30_encoding.md R88). -/
theorem lowBits_eq_iff : w.extractLsb' 0 2 = 0b11#2 ↔ w.toNat % 4 = 3 := by
  rw [← BitVec.toNat_inj, field_toNat, Nat.pow_zero, Nat.div_one]
  rfl

/-- The test of the opcode on numbers (30_encoding.md R81). -/
theorem opcode_eq_system_iff : w.extractLsb' 0 7 = 0b1110011#7 ↔ w.toNat % 128 = 0x73 := by
  rw [← BitVec.toNat_inj, field_toNat, Nat.pow_zero, Nat.div_one]
  rfl

/-- What the fields of a word with opcode SYSTEM spell, by the number in funct3, where the word is not
SRET's (30_encoding.md R83). -/
def systemRow (n : Nat) (d : BitVec 5) (c : BitVec 12) (a : BitVec 5) : Except DecodeReject Instr :=
  match n with
  | 1 => .ok (.csrrw d c a)
  | 2 => .ok (.csrrs d c a)
  | 3 => .ok (.csrrc d c a)
  | 5 => .ok (.csrrwi d c a)
  | 6 => .ok (.csrrsi d c a)
  | 7 => .ok (.csrrci d c a)
  | _ => .error .opcode

theorem funct3_cases : ∀ f : BitVec 3,
    f = 0#3 ∨ f = 1#3 ∨ f = 2#3 ∨ f = 3#3 ∨ f = 4#3 ∨ f = 5#3 ∨ f = 6#3 ∨ f = 7#3 := by
  decide

theorem decodeFields_sret : decodeFields 0x10200073#32 = .ok .sret := by decide

theorem decodeFields_of_not_low (h : w.toNat % 4 ≠ 3) : decodeFields w = .error .length := by
  rw [decodeFields, if_pos (mt lowBits_eq_iff.mp h)]

theorem decodeFields_of_not_system (hlow : w.toNat % 4 = 3) (h : w.toNat % 128 ≠ 0x73) :
    decodeFields w = .error .opcode := by
  have hsret : w ≠ 0x10200073#32 := by rintro rfl; exact h rfl
  rw [decodeFields, if_neg (not_not.mpr (lowBits_eq_iff.mpr hlow)), if_neg hsret,
    if_pos (mt opcode_eq_system_iff.mp h)]

theorem decodeFields_encodeSystem_of_ne (hs : encodeSystem c a f d ≠ 0x10200073#32) :
    decodeFields (encodeSystem c a f d) = systemRow f.toNat d c a := by
  rw [decodeFields_encodeSystem]
  rcases funct3_cases f with rfl | rfl | rfl | rfl | rfl | rfl | rfl | rfl <;> simp [hs, systemRow]

theorem decodeFields_system (h : w.toNat % 128 = 0x73) (hs : w ≠ 0x10200073#32) :
    decodeFields w = systemRow (w.extractLsb' 12 3).toNat (w.extractLsb' 7 5)
      (w.extractLsb' 20 12) (w.extractLsb' 15 5) := by
  have hw := encodeSystem_fields w (opcode_eq_system_iff.mpr h)
  have hrow := decodeFields_encodeSystem_of_ne (hw.symm ▸ hs)
  rwa [hw] at hrow

/-- Only SYSTEM words decode. -/
theorem system_of_decodeFields_ok (h : decodeFields w = .ok i) : w.toNat % 128 = 0x73 := by
  by_contra hop
  by_cases hlow : w.toNat % 4 = 3
  · cases (decodeFields_of_not_system hlow hop).symm.trans h
  · cases (decodeFields_of_not_low hlow).symm.trans h

/-! ### Decode and encode are inverse to each other -/

/-- The instruction of a row has the row's layout, so its word shows the fields it was read from. -/
theorem encode_of_systemRow (h : systemRow f.toNat d c a = .ok i) :
    encode i = encodeSystem c a f d := by
  rcases funct3_cases f with rfl | rfl | rfl | rfl | rfl | rfl | rfl | rfl <;> cases h <;> rfl

theorem decodeFields_encode (i : Instr) : decodeFields (encode i) = .ok i := by
  cases i with
  | sret => exact decodeFields_sret
  | _ => exact decodeFields_encodeSystem _ _ _ _

/-- The fields of a word give an instruction exactly when the word is its encoding. -/
theorem decodeFields_eq_ok_iff : decodeFields w = .ok i ↔ encode i = w := by
  constructor
  · intro h
    by_cases hs : w = 0x10200073#32
    · subst hs
      cases decodeFields_sret.symm.trans h
      rfl
    · have hop := system_of_decodeFields_ok h
      rw [decodeFields_system hop hs] at h
      exact (encode_of_systemRow h).trans (encodeSystem_fields w (opcode_eq_system_iff.mpr hop))
  · rintro rfl
    exact decodeFields_encode i

/-- `decode` refuses what the fields refuse, for the same reason (30_encoding.md R90). -/
theorem decode_of_fields_error (h : decodeFields w = .error r) : decode x w = .error r := by
  rw [decode, h]

/-- On an instruction that the fields give, `decode` asks for its CSR number only (30_encoding.md R87). -/
theorem decode_of_fields_ok (h : decodeFields w = .ok i) :
    decode x w = if wellFormed x i then .ok i else .error .csr := by
  rw [decode, h]
  rfl

theorem decode_eq_ok_iff : decode x w = .ok i ↔ decodeFields w = .ok i ∧ wellFormed x i = true := by
  constructor
  · intro h
    cases hw : decodeFields w with
    | error r => cases (decode_of_fields_error hw).symm.trans h
    | ok j =>
      rw [decode_of_fields_ok hw] at h
      split at h
      · rename_i hwf
        cases h
        exact ⟨rfl, hwf⟩
      · cases h
  · rintro ⟨hw, hwf⟩
    rw [decode_of_fields_ok hw, if_pos hwf]

end Words

/-- Settles O1: the fields of an encoded word are the operands, and only the listing of its CSR number
decides between the instruction and the refusal. -/
theorem decodeOfEncodeIsTheInstruction : Obligations.DecodeOfEncodeIsTheInstruction :=
  fun i => ⟨decodeFields_encode i, fun _ => decode_of_fields_ok (decodeFields_encode i)⟩

/-- Settles O2: a word that decodes is the encoding of what its fields give. -/
theorem encodeOfDecodeIsTheWord : Obligations.EncodeOfDecodeIsTheWord := by
  intro x w i h
  obtain ⟨hfields, hwf⟩ := decode_eq_ok_iff.mp h
  exact ⟨decodeFields_eq_ok_iff.mp hfields, hwf⟩

/-! ### The rows' patterns (30_encoding.md R83) -/

/-- The mask of the CSR rows covers the opcode. -/
theorem opcode_masked (w : BitVec 32) :
    (w &&& 0x0000707F#32).extractLsb' 0 7 = w.extractLsb' 0 7 := by
  rw [BitVec.extractLsb'_and]
  exact BitVec.and_allOnes

/-- The mask of the CSR rows covers funct3. -/
theorem funct3_masked (w : BitVec 32) :
    (w &&& 0x0000707F#32).extractLsb' 12 3 = w.extractLsb' 12 3 := by
  rw [BitVec.extractLsb'_and]
  exact BitVec.and_allOnes

/-- A word is the CSR row with funct3 `f`, its operands in their fields, exactly when it lies in the row's
pattern, whose match value is the row's word with every operand 0. -/
theorem encodeSystem_eq_iff_masked (w : BitVec 32) (f : BitVec 3) :
    encodeSystem (w.extractLsb' 20 12) (w.extractLsb' 15 5) f (w.extractLsb' 7 5) = w ↔
      w &&& 0x0000707F#32 = encodeSystem 0#12 0#5 f 0#5 := by
  constructor
  · intro h
    calc w &&& 0x0000707F#32
      _ = encodeSystem (w.extractLsb' 20 12) (w.extractLsb' 15 5) f (w.extractLsb' 7 5) &&&
            0x0000707F#32 := by rw [h]
      _ = encodeSystem 0#12 0#5 f 0#5 := Pattern.encodeSystem_masked _ _ _ _
  · intro h
    have hop : w.extractLsb' 0 7 = 0b1110011#7 := by
      rw [← opcode_masked, h, encodeSystem_opcode]
    have hf : w.extractLsb' 12 3 = f := by
      rw [← funct3_masked, h, encodeSystem_funct3]
    rw [← hf]
    exact encodeSystem_fields w hop

/-- Two patterns whose match values differ under both masks share no word. -/
theorem patterns_disjoint {p q : BitVec 32 × BitVec 32} (h : p.2 &&& q.1 ≠ q.2 &&& p.1) (w : BitVec 32) :
    ¬ (w &&& p.1 = p.2 ∧ w &&& q.1 = q.2) := by
  rintro ⟨hp, hq⟩
  refine h ?_
  rw [← hp, ← hq, BitVec.and_assoc, BitVec.and_comm p.1, ← BitVec.and_assoc]

/-- Settles O3: a word is a row's instruction when it is its encoding, which is what the pattern says. -/
theorem rowPatternsSelectTheInstruction : Obligations.RowPatternsSelectTheInstruction := by
  refine ⟨fun w => ⟨?csrrw, ?csrrs, ?csrrc, ?csrrwi, ?csrrsi, ?csrrci, ?sret⟩, ?disjoint⟩
  case sret =>
    rw [decodeFields_eq_ok_iff, show (0xFFFFFFFF#32) = BitVec.allOnes 32 from rfl, BitVec.and_allOnes]
    exact eq_comm
  case disjoint => exact List.Pairwise.imp patterns_disjoint (by decide)
  all_goals exact decodeFields_eq_ok_iff.trans (encodeSystem_eq_iff_masked w _)

/-! ### `decode(w)` line by line (30_encoding.md R90) -/

/-- The rows are those of six values of funct3, and each names the number in the `csr` field. -/
theorem systemRow_cases (n : Nat) (d : BitVec 5) (c : BitVec 12) (a : BitVec 5) :
    (n ∈ [1, 2, 3, 5, 6, 7] ∧ ∃ i, systemRow n d c a = .ok i ∧ i.csrField = some c) ∨
      (n ∉ [1, 2, 3, 5, 6, 7] ∧ systemRow n d c a = .error .opcode) := by
  unfold systemRow
  split
  case h_7 => exact .inr ⟨by simp_all, rfl⟩
  all_goals exact .inl ⟨by decide, _, rfl, rfl⟩

/-- What `decode` answers for a SYSTEM word that is not SRET's: by the row of its funct3, and in a row by the
listing of its number. -/
theorem decode_system_cases {w : BitVec 32} (hop : w.toNat % 128 = 0x73) (hs : w ≠ 0x10200073#32)
    (x : Xlen) :
    (w.toNat / 4096 % 8 ∈ [1, 2, 3, 5, 6, 7] ∧ ∃ i, decodeFields w = .ok i ∧
      (ListedNumber x (w.extractLsb' 20 12) → decode x w = .ok i) ∧
      (¬ ListedNumber x (w.extractLsb' 20 12) → decode x w = .error .csr)) ∨
    (w.toNat / 4096 % 8 ∉ [1, 2, 3, 5, 6, 7] ∧ decodeFields w = .error .opcode ∧
      decode x w = .error .opcode) := by
  have hw := decodeFields_system hop hs
  rw [field_toNat] at hw
  obtain ⟨hmem, i, hi, hc⟩ | ⟨hmem, herror⟩ := systemRow_cases (w.toNat / 2 ^ 12 % 2 ^ 3)
    (w.extractLsb' 7 5) (w.extractLsb' 20 12) (w.extractLsb' 15 5)
  · refine .inl ⟨hmem, i, hw.trans hi, fun hn => ?_, fun hn => ?_⟩
    · rw [decode_of_fields_ok (hw.trans hi), if_pos ((wellFormed_iff hc).mpr hn)]
    · rw [decode_of_fields_ok (hw.trans hi), if_neg (mt (wellFormed_iff hc).mp hn)]
  · exact .inr ⟨hmem, hw.trans herror, decode_of_fields_error (hw.trans herror)⟩

/-- Settles O4: outside SRET's word the fields are read in the order of the pseudocode, and a row's
instruction names the number in the `csr` field. -/
theorem decodeFollowsItsPseudocode : Obligations.DecodeFollowsItsPseudocode := by
  refine fun x w => ⟨?length, ?sret, ?opcode, ?unlisted, ?listed⟩
  case length => exact fun hlow => decode_of_fields_error (decodeFields_of_not_low hlow)
  case sret =>
    rintro rfl
    exact decode_of_fields_ok decodeFields_sret
  case opcode => exact fun hlow hop => decode_of_fields_error (decodeFields_of_not_system hlow hop)
  case unlisted =>
    intro hop hs hn
    obtain ⟨hmem, i, -, -, hcsr⟩ | ⟨hmem, -, hopcode⟩ := decode_system_cases hop hs x
    · rw [if_pos hmem, hcsr hn]
    · rw [if_neg hmem, hopcode]
  case listed =>
    intro hop hs hn
    have hdecode : decode x w = decodeFields w := by
      obtain ⟨-, i, hi, hok, -⟩ | ⟨-, herror, hopcode⟩ := decode_system_cases hop hs x
      · rw [hok hn, hi]
      · rw [hopcode, herror]
    rw [hdecode, decodeFields_system hop hs, field_toNat]
    rfl

end Sys2Proof.Proofs

namespace Sys2Proof.Proofs

open Sys2Proof.Machine Sys2Proof.Laws Sys2Proof.Safety Sys2Proof.Claims

/-! ### The access check on a listed number (40_csr_access.md R100) -/

section Check

variable {i : Instr} {rd : BitVec 5} {c : BitVec 12} {r : Csr} {w : Bool} {x : Xlen} {s t : State}

/-- The CSR a number names has a gate bit exactly when the number is a counter's: its low five bits
(30_encoding.md R84, R85). -/
theorem gateBit_of_csrOfNumber (hr : csrOfNumber x c = some r) :
    (CounterNumber x c ∧ gateBit r = some (c.extractLsb' 0 5)) ∨
      (¬ CounterNumber x c ∧ gateBit r = none) := by
  by_cases hn : CounterNumber x c
  · obtain ⟨r', hr', hgate⟩ := counterNumber_names hn
    obtain rfl : r' = r := Option.some.inj (hr'.symm.trans hr)
    exact .inl ⟨hn, hgate⟩
  · obtain hsup | hcounter := csrOfNumber_isSome_iff.mp (Option.isSome_of_eq_some hr)
    · rcases hsup with rfl | rfl | rfl <;> cases hr <;> exact .inr ⟨hn, rfl⟩
    · exact absurd hcounter hn

theorem modeTooLow_iff :
    modeTooLow s c = true ↔
      (s.mode = .U ∧ 0 < c.toNat / 256 % 4) ∨ (s.mode = .S ∧ 1 < c.toNat / 256 % 4) := by
  rw [modeTooLow, csrLowestRank_eq, decide_eq_true_iff]
  cases s.mode <;> simp [rank]
  omega

theorem writesReadOnly_iff : writesReadOnly c w = true ↔ w = true ∧ c.toNat / 1024 = 3 := by
  rw [writesReadOnly, Bool.and_eq_true, csrReadOnly_iff]

theorem userGateClosed_iff (hr : csrOfNumber s.cfg.sxlen c = some r) :
    userGateClosed s r = true ↔
      CounterNumber s.cfg.sxlen c ∧ s.mode = .U ∧ s.scounteren.getLsbD (c.toNat % 32) = false := by
  rw [← gate_toNat]
  obtain ⟨hn, hgate⟩ | ⟨hn, hgate⟩ := gateBit_of_csrOfNumber hr <;>
    simp [userGateClosed, hgate, hn, counterEnable]

theorem machineGateClosed_iff (hr : csrOfNumber s.cfg.sxlen c = some r) :
    machineGateClosed s r = true ↔
      CounterNumber s.cfg.sxlen c ∧ s.mode ≠ .M ∧
        s.cfg.mCounterGate.getLsbD (c.toNat % 32) = false := by
  rw [← gate_toNat]
  obtain ⟨hn, hgate⟩ | ⟨hn, hgate⟩ := gateBit_of_csrOfNumber hr <;>
    simp [machineGateClosed, hgate, hn, machineGate]

/-- On a listed number the model's check raises in the four cases and in no other. -/
theorem csrDenied_iff (hr : csrOfNumber s.cfg.sxlen c = some r) :
    csrDenied s c r w = true ↔ CheckRaises s c w := by
  simp only [csrDenied, Bool.or_eq_true, modeTooLow_iff, writesReadOnly_iff, userGateClosed_iff hr,
    machineGateClosed_iff hr, CheckRaises, or_assoc]

theorem exec_trap_of_checkRaises (hc : i.csrField = some c) (hl : ListedNumber s.cfg.sxlen c)
    (h : CheckRaises s c i.writesCsr) : exec i s = trap s := by
  obtain ⟨r, hr⟩ := Option.isSome_iff_exists.mp (csrOfNumber_isSome_iff.mpr hl)
  exact exec_denied hc hr ((csrDenied_iff hr).mpr h)

theorem exec_next_of_not_checkRaises (hc : i.csrField = some c) (hl : ListedNumber s.cfg.sxlen c)
    (h : ¬ CheckRaises s c i.writesCsr) :
    ∃ r, csrOfNumber s.cfg.sxlen c = some r ∧ exec i s = .next (csrEffect s i r) := by
  obtain ⟨r, hr⟩ := Option.isSome_iff_exists.mp (csrOfNumber_isSome_iff.mpr hl)
  exact ⟨r, hr, exec_permitted hc hr (Bool.eq_false_iff.mpr (mt (csrDenied_iff hr).mp h))⟩

/-- What the four cases come to on a counter number: no mode is too low for it, and it is read-only. -/
theorem checkRaises_counter_iff (hn : CounterNumber s.cfg.sxlen c) :
    CheckRaises s c w ↔
      w = true ∨ (s.mode = .U ∧ s.scounteren.getLsbD (c.toNat % 32) = false) ∨
        (s.mode ≠ .M ∧ s.cfg.mCounterGate.getLsbD (c.toNat % 32) = false) := by
  have hrange : c.toNat / 256 % 4 = 0 ∧ c.toNat / 1024 = 3 := by
    rcases hn with hlow | ⟨-, hhigh⟩ <;> omega
  simp [CheckRaises, hn, hrange]

end Check

/-- Settles O9: the model's check is the four cases, and it alone decides on a listed number. -/
theorem accessRaisesInFourCases : Obligations.AccessRaisesInFourCases := by
  refine fun i c s hc hl => ⟨exec_trap_of_checkRaises hc hl, fun h => ?_⟩
  obtain ⟨r, -, hexec⟩ := exec_next_of_not_checkRaises hc hl h
  exact ⟨_, hexec⟩

/-- Settles O11: on a supervisor register the check asks for the mode alone. -/
theorem supervisorRegistersNeedSupervisorMode :
    Obligations.SupervisorRegistersNeedSupervisorMode := by
  intro i c s hc hn
  obtain ⟨r, hr⟩ := Option.isSome_iff_exists.mp (csrOfNumber_supervisor_isSome s.cfg.sxlen hn)
  refine ⟨fun hm => ⟨_, exec_supervisor_next hc hn hr ?_⟩, exec_supervisor_trap hc hn hr⟩
  rcases hm with hm | hm <;> rw [hm] <;> decide

/-! ### Frame and values of a CSR instruction (40_csr_access.md R101 to R108, R113) -/

section Effects

variable {i : Instr} {rd : BitVec 5} {c : BitVec 12} {r : Csr} {op : MaskOp} {m v : Word}
  {s t : State}

/-- `pc + 4` modulo 2^XLEN, as a number (10_state.md R52). -/
theorem toNat_fit_add_four (x : Xlen) (p : Word) :
    (fit x (p + 4#64)).toNat = (p.toNat + 4) % 2 ^ x.bits := by
  rw [toNat_fit, BitVec.toNat_add]
  cases x <;> simp only [Xlen.bits, BitVec.toNat_ofNat] <;> omega

/-- Every CSR instruction that completes obeys the frame. -/
theorem exec_csrFrame (hexec : exec i s = .next t) (hrd : i.rdField = some rd) : CsrFrame rd s t := by
  obtain ⟨hmode, hspp, hpc, hregs⟩ := exec_csr_frame hexec hrd
  exact ⟨exec_launchSame hexec, hmode, hspp, hregs, readReg_zero t, by rw [hpc, toNat_fit_add_four]⟩

/-- A form that does not write its CSR changes none of the three registers. -/
theorem exec_csrsSame (hexec : exec i s = .next t) (hw : i.writesCsr = false) : CsrsSame s t := by
  obtain ⟨hscounteren, hsscratch, hsepc⟩ := exec_csrs_kept hexec
  exact ⟨hscounteren (by simp [hw]), hsscratch (by simp [hw]), hsepc (by simp [hw])⟩

theorem sepcMasked_iff : sepcMasked s = true ↔ Masked s := by
  simp [sepcMasked, Masked]

theorem hiddenBitOpen_iff :
    hiddenBitOpen s m = true ↔ Masked s ∧ s.sepc.getLsbD 1 = true ∧ m.getLsbD 1 = false := by
  simp [hiddenBitOpen, sepcMasked_iff, and_assoc]

theorem sepcReadsAs_readSepc (s : State) : SepcReadsAs s (readSepc s) := by
  refine ⟨fun hm i => ?_, fun hm => if_neg (mt sepcMasked_iff.mp hm)⟩
  rw [getLsbD_readSepc, sepcMasked_iff.mpr hm, Bool.true_and]
  rfl

/-- In a launch-invariant state every value read is an XLEN-bit value. -/
theorem fits_csrRead (h : Inv s) (r : Csr) : Fits s.cfg.sxlen (csrRead s r).1 := by
  cases r with
  | scounteren => exact fits_setWidth32 _ _
  | sscratch => exact h.sscratchFits
  | sepc => exact fits_readSepc s h.sepcFits
  | counter n => exact fit_fit _ _
  | counterHigh n => exact fit_fit _ _

theorem csrReadsAs_csrRead (h : Inv s) (hr : csrOfNumber s.cfg.sxlen c = some r) :
    CsrReadsAs s c (csrRead s r).1 := by
  refine ⟨?scounteren, ?sscratch, ?sepc, fun _ => (fits_iff _ _).mp (fits_csrRead h r)⟩
  case sepc =>
    rintro rfl
    cases hr
    exact sepcReadsAs_readSepc s
  all_goals
    rintro rfl
    cases hr
    rfl

/-- In a launch-invariant state `rd` gets the value read, with nothing cut off. -/
theorem exec_rd_read (h : Inv s) (hexec : exec i s = .next t) (hrd : i.rdField = some rd)
    (hc : i.csrField = some c) (hr : csrOfNumber s.cfg.sxlen c = some r) (h0 : rd ≠ 0#5) :
    readReg t rd = (csrRead s r).1 :=
  (exec_rd hexec hrd hc hr h0).trans (fits_csrRead h r)

/-- A number that is not a CSR's own names another CSR. -/
theorem ne_of_ne_csrNumber {x : Xlen} {r₀ : Csr} (hr : csrOfNumber x c = some r)
    (hc : c ≠ csrNumber r₀) : r ≠ r₀ := by
  rintro rfl
  exact hc (csrNumber_of_csrOfNumber hr).symm

theorem getLsbD_writeSepc_eq_writtenSepcBit (s : State) (v : Word) (n : Nat) :
    (writeSepc s v).sepc.getLsbD n = writtenSepcBit s v n := by
  rw [getLsbD_writeSepc, writtenSepcBit, Bool.not_or, ← Bool.and_assoc,
    Bool.and_comm (decide _)]
  rfl

/-! ### The writing forms -/

/-- What CSRRW and CSRRWI leave in the three registers (40_csr_access.md R102). -/
theorem csrHolds_swapCsr (hr : csrOfNumber s.cfg.sxlen c = some r) (hv : Fits s.cfg.sxlen v) :
    CsrHolds s (swapCsr s rd v r) c v := by
  obtain ⟨-, -, -, -, -, -, -, hscounteren, hsscratch, hsepc⟩ := swapCsr_frame s rd v r
  refine ⟨?_, ?_, ?_, fun hc => hsepc (ne_of_ne_csrNumber hr hc)⟩
  · split
    · next hc => subst hc; cases hr; exact swapCsr_scounteren s rd v
    · next hc => exact hscounteren (ne_of_ne_csrNumber hr hc)
  · split
    · next hc => subst hc; cases hr; exact (swapCsr_sscratch s rd v).trans hv
    · next hc => exact hsscratch (ne_of_ne_csrNumber hr hc)
  · rintro rfl n
    cases hr
    rw [swapCsr_sepc, getLsbD_writeSepc_eq_writtenSepcBit]

/-- CSRRW and CSRRWI in one: where an instruction whose effect is a swap raises, and what it does where it
does not. -/
theorem exec_swap (h : Inv s) (hl : ListedNumber s.cfg.sxlen c) (hc : i.csrField = some c)
    (hrd : i.rdField = some rd) (heff : csrEffect s i = swapCsr s rd v)
    (hv : Fits s.cfg.sxlen v) :
    (CheckRaises s c i.writesCsr → exec i s = trap s) ∧
      (¬ CheckRaises s c i.writesCsr → ∃ t, exec i s = .next t ∧ Swaps s t rd c v) := by
  refine ⟨exec_trap_of_checkRaises hc hl, fun hno => ?_⟩
  obtain ⟨r, hr, hexec⟩ := exec_next_of_not_checkRaises hc hl hno
  refine ⟨_, hexec, ?_, exec_csrFrame hexec hrd, fun h0 =>
    ⟨_, csrReadsAs_csrRead h hr, exec_rd_read h hexec hrd hc hr h0⟩⟩
  rw [heff]
  exact csrHolds_swapCsr hr hv

/-! ### The set and clear forms -/

theorem fits_maskApply {x : Xlen} {old : Word} (hold : Fits x old) (hm : Fits x m) :
    Fits x (maskApply op old m) := by
  cases op
  · exact fits_or hold hm
  · exact fits_and hold _

theorem maskCsr_scounteren (s : State) (op : MaskOp) (rd : BitVec 5) (m : Word) :
    (maskCsr op s rd true m .scounteren).scounteren =
      (maskApply op (csrRead s .scounteren).1 m).setWidth 32 &&& ~~~ s.cfg.scounterenHz := by
  rw [maskCsr, advancePc_scounteren, writeReg_scounteren]
  rfl

theorem maskCsr_sscratch (s : State) (op : MaskOp) (rd : BitVec 5) (m : Word) :
    (maskCsr op s rd true m .sscratch).sscratch =
      fit s.cfg.sxlen (maskApply op (csrRead s .sscratch).1 m) := by
  rw [maskCsr, advancePc_sscratch, writeReg_sscratch]
  rfl

/-- A set or clear of `sepc` stores what a write of the masked value stores, but for the hidden bit in the
open case (40_csr_access.md R113). -/
theorem getLsbD_maskCsr_sepc (s : State) (op : MaskOp) (rd : BitVec 5) (m : Word) {n : Nat}
    (hn : n = 1 → ¬ hiddenBitOpen s m = true) :
    (maskCsr op s rd true m .sepc).sepc.getLsbD n =
      (writeSepc s (maskApply op (csrRead s .sepc).1 m)).sepc.getLsbD n := by
  have hmask : (maskCsr op s rd true m .sepc).sepc = (csrMask op s .sepc m).sepc := by
    rw [maskCsr, advancePc_sepc, writeReg_sepc]
    rfl
  rw [hmask, csrMask_sepc]
  split
  · next hopen =>
    have hne : n ≠ 1 := fun e => hn e hopen
    rw [takeDraw_sepc, setSepc_sepc, writeSepc_cfg, getLsbD_fit, getLsbD_setBit _ _ _ _ (by omega),
      if_neg hne, ← getLsbD_fit]
    exact congrArg (BitVec.getLsbD · n) (fits_writeSepc s _)
  · rfl

/-- What the set and clear forms leave in the three registers when they write. -/
theorem csrMasked_maskCsr (h : Inv s) (hr : csrOfNumber s.cfg.sxlen c = some r)
    (hm : Fits s.cfg.sxlen m) :
    CsrMasked s (maskCsr op s rd true m r) c m (maskApply op (csrRead s r).1 m) := by
  obtain ⟨-, -, -, -, -, -, -, hscounteren, hsscratch, hsepc⟩ := maskCsr_frame s op rd true m r
  refine ⟨?_, ?_, ?_, fun hc => hsepc (.inl (ne_of_ne_csrNumber hr hc))⟩
  · split
    · next hc => subst hc; cases hr; exact maskCsr_scounteren s op rd m
    · next hc => exact hscounteren (.inl (ne_of_ne_csrNumber hr hc))
  · split
    · next hc =>
      subst hc; cases hr
      exact (maskCsr_sscratch s op rd m).trans (fits_maskApply (fits_csrRead h _) hm)
    · next hc => exact hsscratch (.inl (ne_of_ne_csrNumber hr hc))
  · rintro rfl n hn
    cases hr
    rw [getLsbD_maskCsr_sepc s op rd m fun e => mt hiddenBitOpen_iff.mp (hn e),
      getLsbD_writeSepc_eq_writtenSepcBit]

/-- CSRRS, CSRRC, CSRRSI and CSRRCI in one: where an instruction whose effect is a set or clear raises, and
what it does where it does not. -/
theorem exec_mask (h : Inv s) (hl : ListedNumber s.cfg.sxlen c) (hc : i.csrField = some c)
    (hrd : i.rdField = some rd) (heff : csrEffect s i = maskCsr op s rd i.writesCsr m)
    (hm : Fits s.cfg.sxlen m) :
    (CheckRaises s c i.writesCsr → exec i s = trap s) ∧
      (¬ CheckRaises s c i.writesCsr →
        ∃ t, exec i s = .next t ∧ Modifies s t rd c i.writesCsr m (maskApply op · m)) := by
  refine ⟨exec_trap_of_checkRaises hc hl, fun hno => ?_⟩
  obtain ⟨r, hr, hexec⟩ := exec_next_of_not_checkRaises hc hl hno
  refine ⟨_, hexec, _, csrReadsAs_csrRead h hr, exec_csrFrame hexec hrd,
    exec_rd_read h hexec hrd hc hr, fun hw => ?_, exec_csrsSame hexec⟩
  rw [heff, hw]
  exact csrMasked_maskCsr h hr hm

end Effects

/-- Settles O41: the frame of an access, with each register kept unless a writing form names it. -/
theorem csrInstructionsChangeNothingElse : Obligations.CsrInstructionsChangeNothingElse := by
  intro i rd c s t hrd hc hexec
  obtain ⟨hscounteren, hsscratch, hsepc⟩ := exec_csrs_kept hexec
  exact ⟨exec_csrFrame hexec hrd, exec_csrsSame hexec,
    fun hne => hscounteren (by simp [hc, hne]), fun hne => hsscratch (by simp [hc, hne]),
    fun hne => hsepc (by simp [hc, hne])⟩

/-- Settles O13: CSRRW is a swap with a register as its source; a counter's number is read-only. -/
theorem csrrwReadsAndWrites : Obligations.CsrrwReadsAndWrites := by
  refine fun rd c rs1 => ⟨decodeFields_encode (.csrrw rd c rs1), fun s h hl => ⟨fun hn => ?_, ?_⟩⟩
  · exact exec_trap_of_checkRaises rfl hl ((checkRaises_counter_iff hn).mpr (.inl rfl))
  · exact exec_swap (i := .csrrw rd c rs1) h hl rfl rfl rfl (h.regsFit rs1)

/-- Settles O14: CSRRS sets by a register. -/
theorem csrrsReadsAndSets : Obligations.CsrrsReadsAndSets :=
  fun rd c rs1 => ⟨decodeFields_encode (.csrrs rd c rs1), fun _ h hl =>
    exec_mask (i := .csrrs rd c rs1) (op := .set) h hl rfl rfl rfl (h.regsFit rs1)⟩

/-- Settles O15: CSRRC clears by a register. -/
theorem csrrcReadsAndClears : Obligations.CsrrcReadsAndClears :=
  fun rd c rs1 => ⟨decodeFields_encode (.csrrc rd c rs1), fun _ h hl =>
    exec_mask (i := .csrrc rd c rs1) (op := .clear) h hl rfl rfl rfl (h.regsFit rs1)⟩

/-- Settles O16: CSRRWI is a swap with the zero-extended immediate as its source. -/
theorem csrrwiReadsAndWrites : Obligations.CsrrwiReadsAndWrites := by
  intro rd c uimm
  rw [BitVec.ofNat_toNat]
  exact ⟨decodeFields_encode (.csrrwi rd c uimm), fun s h hl =>
    exec_swap (i := .csrrwi rd c uimm) h hl rfl rfl rfl (fits_zextUimm _ uimm)⟩

/-- Settles O17: CSRRSI sets by the zero-extended immediate. -/
theorem csrrsiReadsAndSets : Obligations.CsrrsiReadsAndSets := by
  intro rd c uimm
  rw [BitVec.ofNat_toNat]
  exact ⟨decodeFields_encode (.csrrsi rd c uimm), fun s h hl =>
    exec_mask (i := .csrrsi rd c uimm) (op := .set) h hl rfl rfl rfl (fits_zextUimm _ uimm)⟩

/-- Settles O18: CSRRCI clears by the zero-extended immediate. -/
theorem csrrciReadsAndClears : Obligations.CsrrciReadsAndClears := by
  intro rd c uimm
  rw [BitVec.ofNat_toNat]
  exact ⟨decodeFields_encode (.csrrci rd c uimm), fun s h hl =>
    exec_mask (i := .csrrci rd c uimm) (op := .clear) h hl rfl rfl rfl (fits_zextUimm _ uimm)⟩

/-! ### Counters (40_csr_access.md R109 to R112) -/

/-- What a reading form does to a counter: a free value is taken and goes to `rd`
(40_csr_access.md R110). -/
def readCounter (s : State) (rd : BitVec 5) (r : Csr) : State :=
  advancePc (writeReg (takeDraw s) rd (csrRead s r).1)

section Counters

variable {i : Instr} {rd : BitVec 5} {c : BitVec 12} {r : Csr} {s t : State}

theorem readCounter_draws (s : State) (rd : BitVec 5) (r : Csr) :
    (readCounter s rd r).draws = s.draws + 1 := by
  rw [readCounter, advancePc_draws, writeReg_draws, takeDraw_draws]

/-- The forms that read their CSR and do not write it (40_csr_access.md R104, R105, R107, R108). -/
theorem reading_forms (hc : i.csrField = some c) (hw : i.writesCsr = false) :
    ∃ rd, i.rdField = some rd ∧
      (i = .csrrs rd c 0#5 ∨ i = .csrrc rd c 0#5 ∨ i = .csrrsi rd c 0#5 ∨ i = .csrrci rd c 0#5) := by
  cases i with
  | sret => cases hc
  | csrrw | csrrwi => cases hw
  | csrrs rd c' u | csrrc rd c' u | csrrsi rd c' u | csrrci rd c' u =>
    cases hc
    obtain rfl : u = 0#5 := bne_eq_false_iff_eq.mp hw
    exact ⟨rd, rfl, by simp⟩

/-- The effect of a reading form on a counter. -/
theorem csrEffect_counter (hc : i.csrField = some c) (hrd : i.rdField = some rd)
    (hw : i.writesCsr = false) (hr : csrOfNumber s.cfg.sxlen c = some r)
    (hn : CounterNumber s.cfg.sxlen c) : csrEffect s i r = readCounter s rd r := by
  have hstate : (csrRead s r).2 = takeDraw s := by
    obtain ⟨-, hgate⟩ | ⟨hno, -⟩ := gateBit_of_csrOfNumber hr
    · rw [csrRead_state, hgate]; rfl
    · exact absurd hn hno
  rw [readCounter, ← hstate]
  obtain ⟨rd', -, rfl | rfl | rfl | rfl⟩ := reading_forms hc hw <;> cases hrd <;> rfl

/-- A writing form raises on a counter, whose number is read-only (30_encoding.md R85). -/
theorem exec_counter_write_trap (hc : i.csrField = some c) (hn : CounterNumber s.cfg.sxlen c)
    (hw : i.writesCsr = true) : exec i s = trap s :=
  exec_trap_of_checkRaises hc (.inr hn) ((checkRaises_counter_iff hn).mpr (.inl hw))

/-- An instruction that completes on a counter is a reading form, and takes a free value to `rd`. -/
theorem exec_counter_next (hc : i.csrField = some c) (hn : CounterNumber s.cfg.sxlen c)
    (hexec : exec i s = .next t) :
    i.writesCsr = false ∧ ∀ rd, i.rdField = some rd →
      ∃ r, csrOfNumber s.cfg.sxlen c = some r ∧ t = readCounter s rd r := by
  have hw : i.writesCsr = false := by
    rw [← Bool.not_eq_true]
    intro hw
    cases hexec.symm.trans (exec_counter_write_trap hc hn hw)
  rw [exec_eq_csrAccess hc] at hexec
  obtain ⟨r, hr, -, rfl⟩ := (csrAccess_next_iff _ _ _ _ _).mp hexec
  exact ⟨hw, fun rd hrd => ⟨r, hr, csrEffect_counter hc hrd hw hr hn⟩⟩

/-- What a counter read returns: the next free value, cut to XLEN bits. -/
theorem csrRead_counter (hr : csrOfNumber s.cfg.sxlen c = some r)
    (hn : CounterNumber s.cfg.sxlen c) :
    (csrRead s r).1 = fit s.cfg.sxlen (Config.counterDraw c s.draws) := by
  obtain ⟨-, hgate⟩ | ⟨hno, -⟩ := gateBit_of_csrOfNumber hr
  · rw [← csrNumber_of_csrOfNumber hr]
    cases r with
    | counter n | counterHigh n => rfl
    | scounteren | sscratch | sepc => cases hgate
  · exact absurd hn hno

/-! ### `scounteren` outside U-mode (40_csr_access.md R111) -/

theorem writeReg_with_scounteren (s : State) (v : BitVec 32) (n : BitVec 5) (w : Word) :
    writeReg { s with scounteren := v } n w = { writeReg s n w with scounteren := v } := by
  unfold writeReg
  split <;> rfl

/-- The access check looks at `scounteren` in U-mode only. -/
theorem csrDenied_with_scounteren (hm : s.mode ≠ .U) (v : BitVec 32) (c : BitVec 12) (r : Csr)
    (w : Bool) : csrDenied { s with scounteren := v } c r w = csrDenied s c r w := by
  have hopen : ∀ u : State, u.mode = s.mode → userGateClosed u r = false := by
    intro u hu
    unfold userGateClosed
    split
    · simp [hu, hm]
    · rfl
  simp only [csrDenied, hopen s rfl, hopen { s with scounteren := v } rfl]
  rfl

/-- A counter read does not look at `scounteren` once it is let through. -/
theorem readCounter_with_scounteren (hr : csrOfNumber s.cfg.sxlen c = some r)
    (hn : CounterNumber s.cfg.sxlen c) (v : BitVec 32) :
    readCounter { s with scounteren := v } rd r = { readCounter s rd r with scounteren := v } := by
  rw [readCounter, readCounter, csrRead_counter hr hn,
    csrRead_counter (s := { s with scounteren := v }) hr hn]
  exact congrArg advancePc (writeReg_with_scounteren (takeDraw s) v rd _)

/-- Outside U-mode an instruction on a counter ends alike whatever `scounteren` holds. -/
theorem exec_counter_with_scounteren (hc : i.csrField = some c)
    (hn : CounterNumber s.cfg.sxlen c) (hm : s.mode ≠ .U) (v : BitVec 32) :
    exec i { s with scounteren := v } = onNext (fun t => { t with scounteren := v }) (exec i s) := by
  cases hw : i.writesCsr with
  | true =>
    rw [exec_counter_write_trap hc hn hw,
      exec_counter_write_trap (s := { s with scounteren := v }) hc hn hw]
    rfl
  | false =>
    obtain ⟨rd, hrd, -⟩ := reading_forms hc hw
    rw [exec_eq_csrAccess hc, exec_eq_csrAccess hc]
    refine csrAccess_onNext rfl rfl (csrDenied_with_scounteren hm v c · _) fun r hr => ?_
    rw [csrEffect_counter hc hrd hw hr hn,
      csrEffect_counter (s := { s with scounteren := v }) hc hrd hw hr hn,
      readCounter_with_scounteren hr hn]

/-- Above U-mode a reading form on a counter completes where M_COUNTER_GATE permits it, and in M-mode
always. -/
theorem exec_counter_read_next (hc : i.csrField = some c) (hn : CounterNumber s.cfg.sxlen c)
    (hw : i.writesCsr = false) (hm : s.mode ≠ .U)
    (hgate : s.mode = .M ∨ s.cfg.mCounterGate.getLsbD (c.toNat % 32) = true) :
    ∃ t, exec i s = .next t := by
  have hno : ¬ CheckRaises s c i.writesCsr := by
    rw [checkRaises_counter_iff hn]
    rcases hgate with hM | hset
    · simp [hw, hM]
    · simp [hw, hm, hset]
  obtain ⟨r, -, hexec⟩ := exec_next_of_not_checkRaises hc (.inr hn) hno
  exact ⟨_, hexec⟩

end Counters

/-- Settles O21: the clear bit is the third case of the check, and with both bits set no case is left for a
read. -/
theorem userCounterReadNeedsItsBit : Obligations.UserCounterReadNeedsItsBit :=
  fun _ _ _ hc hn hm => ⟨exec_counter_trap hc hn hm, fun hbit hw hgate =>
    exec_counter_read hc hw hn hbit hgate⟩

/-- Settles O22: outside U-mode neither the check nor the read looks at `scounteren`; what is left of the
check is M_COUNTER_GATE, which does not bind M-mode. -/
theorem scounterenGovernsUserModeOnly : Obligations.ScounterenGovernsUserModeOnly := by
  refine fun i c s hc hn hm => ⟨exec_counter_with_scounteren hc hn hm, fun hw hS => ⟨fun hset => ?_,
    fun hclear => ?_⟩, fun hw hM => ?_⟩
  · exact exec_counter_read_next hc hn hw hm (.inr hset)
  · have hnotM : s.mode ≠ .M := by rw [hS]; decide
    exact exec_trap_of_checkRaises hc (.inr hn)
      ((checkRaises_counter_iff hn).mpr (.inr (.inr ⟨hnotM, hclear⟩)))
  · exact exec_counter_read_next hc hn hw hm (.inl hM)

/-- Settles O23: what completes is a reading form; the gate bit of an upper half is that of its low half. -/
theorem onlyReadingFormsPassOnACounter : Obligations.OnlyReadingFormsPassOnACounter := by
  refine fun i c s hc hn => ⟨fun t hexec => ?_, exec_counter_write_trap hc hn,
    fun _ hhigh hm hbit => ?_⟩
  · obtain ⟨hw, hread⟩ := exec_counter_next hc hn hexec
    obtain ⟨rd, hrd, hform⟩ := reading_forms hc hw
    obtain ⟨r, -, rfl⟩ := hread rd hrd
    exact ⟨⟨rd, hform⟩, readCounter_draws s rd r⟩
  · have hgate : c.toNat % 32 = c.toNat - 0xC80 := by
      rcases hn with hlow | ⟨-, hrange⟩ <;> omega
    exact exec_counter_trap hc hn hm (hgate ▸ hbit)

/-- Settles O24: the read takes one free value, and the frame of an access leaves the rest alone. -/
theorem counterReadReturnsAFreeValue : Obligations.CounterReadReturnsAFreeValue := by
  intro i rd c s t hrd hc hn hexec
  obtain ⟨hw, hread⟩ := exec_counter_next hc hn hexec
  obtain ⟨r, hr, ht⟩ := hread rd hrd
  refine ⟨exec_csrsSame hexec hw, exec_csrFrame hexec hrd, ht ▸ readCounter_draws s rd r,
    fun h0 => ?_⟩
  rw [exec_rd hexec hrd hc hr h0, csrRead_counter hr hn, fit_fit, toNat_fit]

end Sys2Proof.Proofs

namespace Sys2Proof.Proofs

open Sys2Proof.Machine Sys2Proof.Laws Sys2Proof.Safety Sys2Proof.Claims

/-! ### SRET (41_sret.md R131 to R133) -/

section Sret

variable {s : State}

theorem sretDenied_iff :
    sretDenied s = true ↔ s.mode = .U ∨ (s.mode = .S ∧ s.cfg.mTsr = true) := by
  simp [sretDenied]

theorem exec_sret_trap (h : s.mode = .U ∨ (s.mode = .S ∧ s.cfg.mTsr = true)) :
    exec .sret s = trap s :=
  (execSret_fault_iff s _).mpr ⟨sretDenied_iff.mpr h, rfl⟩

theorem exec_sret_permitted (h : ¬ (s.mode = .U ∨ (s.mode = .S ∧ s.cfg.mTsr = true))) :
    exec .sret s = .next (returnFromTrap s) :=
  (execSret_next_iff s _).mpr ⟨Bool.eq_false_iff.mpr (mt sretDenied_iff.mp h), rfl⟩

/-- The mode `spp` names is the mode after the return (41_sret.md R132). -/
theorem returnFromTrap_mode_of_spp (s : State) :
    (s.spp = .U → (returnFromTrap s).mode = .U) ∧ (s.spp = .S → (returnFromTrap s).mode = .S) := by
  rw [returnFromTrap_mode]
  constructor <;> intro hspp <;> rw [hspp, sppMode]

end Sret

/-- Settles O20: SRET that is let through is the return from a trap. Its target is what `sepc` reads as, which
the launch invariant keeps aligned, so that the fetch after it stops for want of a word only. -/
theorem sretReturns : Obligations.SretReturns := by
  refine ⟨decodeFields_sret, fun s h => ⟨exec_sret_trap, fun hpermitted => ?_⟩⟩
  have hexec := exec_sret_permitted hpermitted
  have hreads : SepcReadsAs s (returnFromTrap s).pc :=
    exec_sret_pc h hexec ▸ sepcReadsAs_readSepc s
  have haligned := (inv_returnFromTrap h).pcAligned
  obtain ⟨hmodeU, hmodeS⟩ := returnFromTrap_mode_of_spp s
  exact ⟨_, hexec, hreads, hmodeU, hmodeS, returnFromTrap_spp s, haligned, ⟨rfl, rfl, rfl⟩,
    exec_launchSame hexec, readReg_returnFromTrap s, returnFromTrap_draws s,
    fun hget => step_of_not_fetched (fetchInstr_left haligned hget)⟩

/-- Settles O19: what denies SRET is U-mode, or S-mode with M_TSR = 1, and nothing denies it to M-mode. -/
theorem sretNeedsItsMode : Obligations.SretNeedsItsMode := by
  refine ⟨rfl, fun s => ⟨fun hU => ?user, fun hS htsr => ?denied, fun hS htsr => ?supervisor,
    fun hM => ?machine⟩⟩
  case user => exact exec_sret_trap (.inl hU)
  case denied => exact exec_sret_trap (.inr ⟨hS, htsr⟩)
  case supervisor => exact ⟨_, exec_sret_supervisor hS htsr⟩
  case machine =>
    exact ⟨_, exec_sret_permitted (by simp [hM]), returnFromTrap_mode_of_spp s⟩

end Sys2Proof.Proofs

namespace Sys2Proof.Proofs

open Sys2Proof.Machine Sys2Proof.Laws

/-! ### Exceptions (60_exceptions.md R140, R144) -/

/-- The inversion of `step` for an exception: it is raised by the instruction fetched, since a failed fetch
is a refusal. -/
theorem step_fault_cases {s : State} {f : Fault} (h : step s = .fault f) :
    ∃ i, fetchInstr s = .ok i ∧ exec i s = .fault f := by
  cases hfetch : fetchInstr s with
  | ok i => exact ⟨i, rfl, step_of_fetched hfetch ▸ h⟩
  | error q => cases (step_of_not_fetched hfetch).symm.trans h

/-- What SRET raises where it is denied, and a CSR instruction where its access is, is one fault, at the
`pc` of the instruction. -/
theorem exec_fault_eq {i : Instr} {s : State} {f : Fault} (h : exec i s = .fault f) :
    f = .trapped .illegalInstruction s.pc := by
  cases hc : i.csrField with
  | none =>
    obtain rfl := eq_sret_of_csrField_none hc
    exact ((execSret_fault_iff s f).mp h).2
  | some c =>
    rw [exec_eq_csrAccess hc] at h
    exact ((csrAccess_fault_iff _ _ _ _ _).mp h).1

/-- Settles O10: an exception of a step is one of the instruction fetched, and the model has one cause. -/
theorem everyExceptionIsIllegalInstruction : Obligations.EveryExceptionIsIllegalInstruction := by
  refine ⟨fun s f hstep => ?fault, fun k => ?code⟩
  case fault =>
    obtain ⟨i, -, hexec⟩ := step_fault_cases hstep
    exact exec_fault_eq hexec
  case code =>
    cases k
    rfl

end Sys2Proof.Proofs

namespace Sys2Proof.Proofs

open Sys2Proof.Machine Sys2Proof.Laws Sys2Proof.Claims

/-! ### User code and the supervisor's registers (70_reset_and_hazards.md R175) -/

/-- The state with other values in the three supervisor registers that user code must not learn. -/
def withSecrets (s : State) (a b : Word) (p : Spp) : State :=
  { s with sscratch := a, sepc := b, spp := p }

section UserMode

variable {i : Instr} {rd : BitVec 5} {c : BitVec 12} {r : Csr} {s t : State}

/-- All that an instruction can be in U-mode: one that always raises (SRET, a supervisor register, a write of
a counter), one refused for its number, or a read of a counter (40_csr_access.md R100, R114; 41_sret.md
R133). -/
theorem user_instr_cases (i : Instr) (x : Xlen) :
    (∀ s : State, s.cfg.sxlen = x → s.mode = .U → exec i s = trap s) ∨
    (∃ c, i.csrField = some c ∧ ¬ ListedNumber x c) ∨
    ∃ c, i.csrField = some c ∧ CounterNumber x c ∧ i.writesCsr = false := by
  cases hc : i.csrField with
  | none =>
    obtain rfl := eq_sret_of_csrField_none hc
    exact .inl fun s _ hm => exec_sret_trap (.inl hm)
  | some c =>
    by_cases hl : ListedNumber x c
    · rcases hl with hsup | hn
      · obtain ⟨r, hr⟩ := Option.isSome_iff_exists.mp (csrOfNumber_supervisor_isSome x hsup)
        exact .inl fun s hx hm => exec_supervisor_trap hc hsup (hx ▸ hr) hm
      · cases hw : i.writesCsr with
        | true => exact .inl fun s hx _ => exec_counter_write_trap hc (hx ▸ hn) hw
        | false => exact .inr (.inr ⟨c, rfl, hn, rfl⟩)
    · exact .inr (.inl ⟨c, rfl, hl⟩)

/-- What completes in U-mode is a read of a counter. -/
theorem exec_user_next (hm : s.mode = .U) (hexec : exec i s = .next t) :
    i.writesCsr = false ∧ ∃ rd, i.rdField = some rd := by
  obtain htrap | ⟨c, hc, hl⟩ | ⟨c, hc, -, hw⟩ := user_instr_cases i s.cfg.sxlen
  · cases hexec.symm.trans (htrap s rfl hm)
  · cases hexec.symm.trans ((unlistedCsrNumberIsRefused i s _).mpr ⟨c, hc, hl, rfl⟩)
  · obtain ⟨rd, hrd, -⟩ := reading_forms hc hw
    exact ⟨hw, rd, hrd⟩

/-! ### Two runs that differ in what user code must not learn -/

theorem writeReg_withSecrets (s : State) (a b : Word) (p : Spp) (n : BitVec 5) (w : Word) :
    writeReg (withSecrets s a b p) n w = withSecrets (writeReg s n w) a b p := by
  unfold writeReg
  split <;> rfl

/-- A counter read looks at none of the three. -/
theorem readCounter_withSecrets (hr : csrOfNumber s.cfg.sxlen c = some r)
    (hn : CounterNumber s.cfg.sxlen c) (a b : Word) (p : Spp) :
    readCounter (withSecrets s a b p) rd r = withSecrets (readCounter s rd r) a b p := by
  rw [readCounter, readCounter, csrRead_counter hr hn,
    csrRead_counter (s := withSecrets s a b p) hr hn]
  exact congrArg advancePc (writeReg_withSecrets (takeDraw s) a b p rd _)

/-- In U-mode an instruction ends alike whatever the three hold: the access check looks at none of them, and
the one effect it lets through is a counter read. -/
theorem exec_user_withSecrets (i : Instr) (hm : s.mode = .U) (a b : Word) (p : Spp) :
    exec i (withSecrets s a b p) = onNext (withSecrets · a b p) (exec i s) := by
  obtain htrap | ⟨c, hc, hl⟩ | ⟨c, hc, hn, hw⟩ := user_instr_cases i s.cfg.sxlen
  · rw [htrap s rfl hm, htrap (withSecrets s a b p) rfl hm]
    rfl
  · rw [exec_eq_csrAccess hc, exec_eq_csrAccess hc]
    refine csrAccess_onNext rfl rfl (fun _ => rfl) fun r hr => ?_
    exact absurd (csrOfNumber_isSome_iff.mp (Option.isSome_of_eq_some hr)) hl
  · obtain ⟨rd, hrd, -⟩ := reading_forms hc hw
    rw [exec_eq_csrAccess hc, exec_eq_csrAccess hc]
    refine csrAccess_onNext rfl rfl (fun _ => rfl) fun r hr => ?_
    rw [csrEffect_counter hc hrd hw hr hn,
      csrEffect_counter (s := withSecrets s a b p) hc hrd hw hr hn,
      readCounter_withSecrets hr hn]

end UserMode

/-- Settles O43: what completes in U-mode reads a counter, so it writes no CSR and keeps the privilege, and
neither the check nor that read looks at the three registers. -/
theorem userCodeIsIsolatedFromTheSupervisor : Obligations.UserCodeIsIsolatedFromTheSupervisor := by
  refine ⟨fun s t hm hstep => ?keeps, fun i s a b p hm => exec_user_withSecrets i hm a b p⟩
  case keeps =>
    obtain ⟨i, -, hexec⟩ := step_next_cases hstep
    obtain ⟨hw, rd, hrd⟩ := exec_user_next hm hexec
    obtain ⟨hmode, hspp, -⟩ := exec_csr_frame hexec hrd
    exact ⟨hmode.trans hm, hspp, exec_csrsSame hexec hw, exec_launchSame hexec⟩

end Sys2Proof.Proofs

namespace Sys2Proof.Proofs

/-! ### The words of the vectors, each as the encoding of its instruction (95_test_vectors.md 2.7) -/

section Vectors

variable {x : Xlen} {w : BitVec 32} {i : Instr}

/-- A word is decoded by writing out the instruction it encodes, with a number listed for the XLEN. -/
theorem decode_of_encode_eq (hw : encode i = w) (hlisted : wellFormed x i = true) :
    decode x w = .ok i :=
  decode_eq_ok_iff.mpr ⟨decodeFields_eq_ok_iff.mpr hw, hlisted⟩

/-- The word of an instruction whose number is not listed for the XLEN (30_encoding.md R87 (b)). -/
theorem decode_of_encode_eq_unlisted (hw : encode i = w) (hunlisted : ¬ wellFormed x i = true) :
    decode x w = .error .csr := by
  rw [decode_of_fields_ok (decodeFields_eq_ok_iff.mpr hw), if_neg hunlisted]

/-- ECALL has opcode SYSTEM and is not SRET's word, and funct3 000 is no row (30_encoding.md R83). -/
theorem decode_ecall (x : Xlen) : decode x 0x00000073#32 = .error .opcode :=
  decode_of_fields_error ((decodeFields_system rfl (by decide)).trans rfl)

end Vectors

/-- Settles O5: seven of the words encode the vector's instruction. ECALL is in no row, one word fails the
test of the two low bits, and the last two read `misa`, and an upper half with XLEN = 64. -/
theorem vectorWordsDecode : Obligations.VectorWordsDecode := by
  refine ⟨?sret, ?csrrw, ?csrrs, ?csrrc, ?csrrwi, ?csrrsi, ?csrrci, ?ecall, ?length, ?misa, ?upperHalf⟩
  case ecall => exact decode_ecall .x32
  case length => exact decode_of_fields_error (decodeFields_of_not_low (by decide))
  case misa => exact decode_of_encode_eq_unlisted (i := .csrrs 5#5 0x301#12 0#5) rfl (by decide)
  case upperHalf => exact decode_of_encode_eq_unlisted (i := .csrrs 10#5 0xC80#12 0#5) rfl (by decide)
  all_goals exact decode_of_encode_eq rfl rfl

end Sys2Proof.Proofs
